-- ==== Sys2Proof/Word.lean ====
section
/-! DEFINITION. Word.lean: the word types of the machine (R20, R32, R50): bytes, the 64-bit datum, addresses, and the
512-bit cell in which a vector register of MAXVL bits is held. -/
namespace Sys2Proof

/-- One byte of memory or of an instruction (R50). -/
abbrev Byte := BitVec 8

/-- The 64-bit datum every form moves, never interpreted (R130). -/
abbrev Quad := BitVec 64

/-- An address; `ADDRW` = 64 bits of it in 64-bit mode, the low 32 in 32-bit modes (R6, R54). -/
abbrev Addr := BitVec 64

/-- The cell that holds one vector register: bits `MAXVL-1:0` are the register (R20), bits from `MAXVL` up do not exist
and are 0 in every well-formed state (`Sys2Proof.Machine.Inv`). -/
abbrev VCell := BitVec 512

end Sys2Proof
end

