-- ==== Sys2Proof/Config.lean ====
section
/-! DEFINITION. Config.lean: the implementation parameters of R6 that no instruction changes (MAXVL, KW, the CPUID feature
flags, MASKED_OFF_FAULTS, MemCheck as data) and the one free value of the model. The parameters are plain data held in
State, so that a claim about every state is a claim about every value of every parameter. -/
namespace Sys2Proof

/-- `MAXVL`, the width of a vector register: 128, 256 or 512 bits (R6, R21). -/
inductive MaxVl where
  | v128 | v256 | v512
deriving DecidableEq, Repr

/-- The number of bits of `MAXVL` (R21). -/
def MaxVl.bits : MaxVl → Nat
  | .v128 => 128
  | .v256 => 256
  | .v512 => 512

/-- `KW`, the width of an opmask register: 16 with AVX512F alone, 64 with AVX512BW (R6, R24). -/
inductive MaskWidth where
  | k16 | k64
deriving DecidableEq, Repr

/-- The number of bits of `KW` (R24). -/
def MaskWidth.bits : MaskWidth → Nat
  | .k16 => 16
  | .k64 => 64

/-- `MASKED_OFF_FAULTS`: whether a masked-off EVEX memory form can fault on its address (R6, R58). -/
inductive MaskedOffFaults where
  | never | always | either
deriving DecidableEq, Repr

/-- The `kind` of a data access (R56). -/
inductive AccessKind where
  | read | write
deriving DecidableEq, Repr

/-- What the platform answers for an access (R56): it admits it, or gives one of the faults of R56, or it is a device
address, which MemCheck should refuse (R59, R215). `pf` reports the address `ea + offset`. DESIGN CHOICE: its code is an
uninterpreted value of 32 bits, a width R56 and R205 do not give (notes/assumptions/17.md). -/
inductive MemVerdict where
  | admits
  | pf (code : BitVec 32) (offset : Addr)
  | gp
  | ss
  | device
deriving DecidableEq, Repr

/-- One line of the platform's address map (R65): the answer for accesses of one kind that start in `lo .. hi`. -/
structure MemRule where
  lo : Addr
  hi : Addr
  kind : AccessKind
  verdict : MemVerdict
deriving DecidableEq, Repr

/-- The parameters fixed for the machine (R6). `memMap` is `MemCheck` as data (R56): its first rule that covers an access
answers it, and an access no rule covers is admitted; every function of the address and the kind is some such list. -/
structure Config where
  maxVl : MaxVl
  maskWidth : MaskWidth
  hasSse2 : Bool
  hasAvx : Bool
  hasAvx512f : Bool
  maskedOffFaults : MaskedOffFaults
  memMap : List MemRule
deriving DecidableEq, Repr

/-- The consistency R21 asks of the parameters: `HAS_AVX` implies `MAXVL >= 256`, `HAS_AVX512F` implies `MAXVL = 512`. -/
def Config.consistent (c : Config) : Bool :=
  (!c.hasAvx || decide (256 ≤ c.maxVl.bits)) && (!c.hasAvx512f || decide (c.maxVl.bits = 512))

/-- The parameters of the machine's reset state (DESIGN CHOICE, notes/assumptions/3.md): every class present,
`MAXVL` = 512, `KW` = 16 (AVX512F alone, R24), `MASKED_OFF_FAULTS` = `either` (the default of R6), every address admitted. -/
def Config.atReset : Config where
  maxVl := .v512
  maskWidth := .k16
  hasSse2 := true
  hasAvx := true
  hasAvx512f := true
  maskedOffFaults := .either
  memMap := []

/-- The free value of the model (notes/assumptions/8.md): under `MASKED_OFF_FAULTS = either`, whether the n-th masked-off
access whose address MemCheck rejects faults (R58 admits both). It has no body: nothing can be proved of its values. -/
opaque Config.freeChoice : Nat → Bool

end Sys2Proof
end

