-- ==== Sys2Proof/Syntax.lean ====
section
/-! DEFINITION. Syntax.lean: the decoded forms of R83, one constructor of Instr per row of spec/opcode_table.json, with the
memory operand of R90 and the encoding choices that fix an instruction's length (R104). Bits the spec says are ignored
(REX.W, VEX.L, VEX.W, EVEX.L'L, extension bits an addressing form does not use) are no part of a decoded form. -/
namespace Sys2Proof

/-- The displacement of a memory operand: none, one byte, or four bytes, stored little-endian (R90). The byte is kept as
it is stored; the class says whether it is scaled (R100). -/
inductive Disp where
  | d0
  | d8 (v : BitVec 8)
  | d32 (v : BitVec 32)
deriving DecidableEq, Repr

/-- The scaled index register of a SIB byte (R89, R90): `x[reg] << scale`. -/
structure Index where
  reg : BitVec 4
  scale : BitVec 2
deriving DecidableEq, Repr

/-- The `m64` operand, one constructor per addressing form of R90. No index (`Xn = 0100b`) is `none`. -/
inductive MemOp where
  /-- `rm` is not `100b`: `x[b] + disp`. -/
  | base (b : BitVec 4) (d : Disp)
  /-- `mod = 00b`, `rm = 101b`: `next + disp32`. -/
  | ripRel (d : BitVec 32)
  /-- A SIB byte with a base register. -/
  | sib (b : BitVec 4) (i : Option Index) (d : Disp)
  /-- A SIB byte with `mod = 00b` and `base = 101b`: no base register, disp32. -/
  | sibNoBase (i : Option Index) (d : BitVec 32)
deriving DecidableEq, Repr

/-- The decoded forms of R83. `rex`: a REX byte is present; `vex3`: the VEX prefix has three bytes; `vvvv` of a memory form
is the field AS STORED (R102 tests the stored field); vector register numbers have the width R101 gives their class. -/
inductive Instr where
  /-- `MOVSD xmm1, xmm2`, `F2 0F 10 /r` (row 1, R131). -/
  | l10r (rex : Bool) (d src : BitVec 4)
  /-- `MOVSD xmm1, m64`, `F2 0F 10 /r` (row 2, R132). -/
  | l10m (rex : Bool) (d : BitVec 4) (m : MemOp)
  /-- `MOVSD xmm1/m64, xmm2` with a register destination, `F2 0F 11 /r` (row 3, R133). -/
  | l11r (rex : Bool) (d src : BitVec 4)
  /-- `MOVSD xmm1/m64, xmm2` with a memory destination, `F2 0F 11 /r` (row 3, R134). -/
  | l11m (rex : Bool) (m : MemOp) (src : BitVec 4)
  /-- `VMOVSD xmm1, xmm2, xmm3`, `VEX.LIG.F2.0F.WIG 10 /r` (row 4, R151). -/
  | v10r (vex3 : Bool) (d s1 s2 : BitVec 4)
  /-- `VMOVSD xmm1, m64`, `VEX.LIG.F2.0F.WIG 10 /r` (row 5, R152). -/
  | v10m (vex3 : Bool) (vvvv d : BitVec 4) (m : MemOp)
  /-- `VMOVSD xmm1, xmm2, xmm3`, `VEX.LIG.F2.0F.WIG 11 /r` (row 6, R153). -/
  | v11r (vex3 : Bool) (d s1 s2 : BitVec 4)
  /-- `VMOVSD m64, xmm1`, `VEX.LIG.F2.0F.WIG 11 /r` (row 7, R154). -/
  | v11m (vex3 : Bool) (vvvv : BitVec 4) (m : MemOp) (src : BitVec 4)
  /-- `VMOVSD xmm1 k1 z, xmm2, xmm3`, `EVEX.LIG.F2.0F.W1 10 /r` (row 8, R172). -/
  | e10r (k : BitVec 3) (z : Bool) (d s1 s2 : BitVec 5)
  /-- `VMOVSD xmm1 k1 z, m64`, `EVEX.LIG.F2.0F.W1 10 /r` (row 9, R173). -/
  | e10m (k : BitVec 3) (z : Bool) (vvvv : BitVec 4) (d : BitVec 5) (m : MemOp)
  /-- `VMOVSD xmm1 k1 z, xmm2, xmm3`, `EVEX.LIG.F2.0F.W1 11 /r` (row 10, R174). -/
  | e11r (k : BitVec 3) (z : Bool) (d s1 s2 : BitVec 5)
  /-- `VMOVSD m64 k1, xmm1`, `EVEX.LIG.F2.0F.W1 11 /r` (row 11, R175). -/
  | e11m (k : BitVec 3) (vvvv : BitVec 4) (m : MemOp) (src : BitVec 5)
deriving DecidableEq, Repr

end Sys2Proof
end

