-- ==== Sys2Proof/WellFormed.lean ====
section
/-! DEFINITION. WellFormed.lean: which decoded forms some bytes encode (R86 to R101): a register number the prefix at hand
can name, an addressing form ModRM and SIB can write, and no zeroing without a writemask (R99). -/
namespace Sys2Proof

/-- The low three bits of a register number, the part ModRM or SIB holds (R86, R101). -/
def low3 {n : Nat} (r : BitVec n) : BitVec 3 := r.extractLsb' 0 3

/-- An index register is any but number 4, whose code means no index (R90). -/
def indexOk : Option Index → Bool
  | none => true
  | some i => i.reg != 4#4

/-- What R90's table can write: `rm = 100b` announces a SIB byte, and code `101b` with `mod = 00b` names no base. -/
def MemOp.wf : MemOp → Bool
  | .base b d => low3 b != 4#3 && (d != .d0 || low3 b != 5#3)
  | .ripRel _ => true
  | .sib b i d => indexOk i && (d != .d0 || low3 b != 5#3)
  | .sibNoBase i _ => indexOk i

/-- The extension bit `X` a memory operand needs: bit 3 of the index register (R101). -/
def MemOp.bitX : MemOp → Bool
  | .sib _ (some i) _ | .sibNoBase (some i) _ => i.reg.getLsbD 3
  | _ => false

/-- The extension bit `B` a memory operand needs: bit 3 of the base register (R101). -/
def MemOp.bitB : MemOp → Bool
  | .base b _ | .sib b _ _ => b.getLsbD 3
  | _ => false

/-- Bit 3 of a vector register number (R101). -/
def bit3 {n : Nat} (r : BitVec n) : Bool := r.getLsbD 3

/-- A decoded form that some bytes encode. Without a REX byte no register number reaches 8 (R87); with the 2-byte VEX
prefix neither the ModRM:r/m register nor the base nor the index does (R94); `z = 1` needs a writemask (R99). -/
def Instr.wf : Instr → Bool
  | .l10r rex d src | .l11r rex d src => rex || (!bit3 d && !bit3 src)
  | .l10m rex r m | .l11m rex m r => m.wf && (rex || (!bit3 r && !m.bitX && !m.bitB))
  | .v10r vex3 _ _ s2 => vex3 || !bit3 s2
  | .v11r vex3 d _ _ => vex3 || !bit3 d
  | .v10m vex3 _ _ m | .v11m vex3 _ m _ => m.wf && (vex3 || (!m.bitX && !m.bitB))
  | .e10r k z _ _ _ | .e11r k z _ _ _ => k != 0#3 || !z
  | .e10m k z _ _ m => m.wf && (k != 0#3 || !z)
  | .e11m _ _ m _ => m.wf

end Sys2Proof
end

