-- ==== Sys2Proof/Decode.lean ====
section
/-! DEFINITION. Decode.lean: from instruction bytes to a decoded form, total and refusing by name (R84 to R101, R103, R104,
R108), for 64-bit mode (R93); after it the length of a decoded form (R104) and the encoder, written from the same layouts. -/
namespace Sys2Proof

/-- Why some bytes are given no meaning (R99, R106, R108): the model's own refusals, not exceptions. -/
inductive DecodeError where
  /-- The bytes end before the instruction does. Raised by every part of the decoder; safe. -/
  | truncated
  /-- The bytes are no form of this instruction (R4, R5). Safe. -/
  | notThisInstruction
  /-- A LOCK byte `F0` stands before the opcode (R62, R108). Safe. -/
  | lockPrefix
  /-- `66`, `F3` or a second `F2` stands beside the mandatory `F2`, or begins the bytes (R108). Safe. -/
  | extraPrefix
  /-- A segment override `26`, `2E`, `36`, `3E`, `64` or `65` (R108). Safe. -/
  | segmentOverride
  /-- The address-size byte `67` (R108). Safe. -/
  | addressSize
  /-- A REX byte that is not immediately before the `0F` of a legacy form (R87, R108). Safe. -/
  | misplacedRex
  /-- `C5`, `C4` or `62` after an `F2` or a REX byte (R108). Safe. -/
  | vexAfterPrefix
  /-- EVEX P0 bits 3:2 are not `00b` or P1 bit 2 is not 1 (R97, R99). Safe. -/
  | evexReservedBits
  /-- EVEX `W = 0` (R99). Safe. -/
  | evexW0
  /-- EVEX `L'L = 11b` (R99). Safe. -/
  | evexLength
  /-- EVEX `b = 1` (R99). Safe. -/
  | evexBroadcast
  /-- EVEX `V'` stored as 0 in a memory form (R99). Safe. -/
  | evexVPrime
  /-- `z = 1` on the EVEX store (R99, R175). Safe. -/
  | evexZeroingStore
  /-- `z = 1` with `aaa = 000b` (R99, R177). Safe. -/
  | evexZeroingNoMask
deriving DecidableEq, Repr

/-- The ModRM byte (R86). -/
structure ModRM where
  mod : BitVec 2
  reg : BitVec 3
  rm : BitVec 3
deriving DecidableEq, Repr

/-- The fields of a ModRM byte (R86). -/
def modRMOf (b : Byte) : ModRM := ⟨b.extractLsb' 6 2, b.extractLsb' 3 3, b.extractLsb' 0 3⟩

/-- The ModRM byte of its fields (R86). -/
def modRMByte (mod : BitVec 2) (reg rm : BitVec 3) : Byte := mod ++ reg ++ rm

/-- The SIB byte (R89). -/
structure Sib where
  scale : BitVec 2
  index : BitVec 3
  base : BitVec 3
deriving DecidableEq, Repr

/-- The fields of a SIB byte (R89). -/
def sibOf (b : Byte) : Sib := ⟨b.extractLsb' 6 2, b.extractLsb' 3 3, b.extractLsb' 0 3⟩

/-- The SIB byte of its fields (R89). -/
def sibByte (scale : BitVec 2) (index base : BitVec 3) : Byte := scale ++ index ++ base

/-- A register number with one extension bit above its three (R101). -/
def reg4 (hi : Bool) (lo : BitVec 3) : BitVec 4 := BitVec.ofBool hi ++ lo

/-- A register number with two extension bits above its three (R101, EVEX). -/
def reg5 (hi' hi : Bool) (lo : BitVec 3) : BitVec 5 := BitVec.ofBool hi' ++ BitVec.ofBool hi ++ lo

/-- The four bytes of a disp32, lowest first (R90), with the bytes after them. -/
def decodeDisp32 : List Byte → Except DecodeError (BitVec 32 × List Byte)
  | b0 :: b1 :: b2 :: b3 :: bs => .ok (b3 ++ b2 ++ b1 ++ b0, bs)
  | _ => .error .truncated

/-- The displacement `mod` announces in the forms that have a base: none, one byte or four (R90). -/
def decodeDisp (mod : BitVec 2) (bs : List Byte) : Except DecodeError (Disp × List Byte) :=
  if mod = 0#2 then .ok (.d0, bs)
  else if mod = 1#2 then
    match bs with
    | b :: bs => .ok (.d8 b, bs)
    | [] => .error .truncated
  else
    match decodeDisp32 bs with
    | .ok (v, bs) => .ok (.d32 v, bs)
    | .error e => .error e

/-- The scaled index of a SIB byte: number `0100b` means none (R90). -/
def indexOf (x : Bool) (s : Sib) : Option Index :=
  if reg4 x s.index = 4#4 then none else some ⟨reg4 x s.index, s.scale⟩

/-- The `m64` operand of a ModRM byte with `mod` not `11b`: R90's table, row by row. `x`, `b` are the class's extension
bits after inversion. -/
def decodeMem (x b : Bool) (mod : BitVec 2) (rm : BitVec 3) (bs : List Byte) :
    Except DecodeError (MemOp × List Byte) :=
  if rm = 4#3 then
    match bs with
    | [] => .error .truncated
    | sb :: bs =>
      if mod = 0#2 ∧ (sibOf sb).base = 5#3 then
        match decodeDisp32 bs with
        | .ok (v, bs) => .ok (.sibNoBase (indexOf x (sibOf sb)) v, bs)
        | .error e => .error e
      else
        match decodeDisp mod bs with
        | .ok (d, bs) => .ok (.sib (reg4 b (sibOf sb).base) (indexOf x (sibOf sb)) d, bs)
        | .error e => .error e
  else if mod = 0#2 ∧ rm = 5#3 then
    match decodeDisp32 bs with
    | .ok (v, bs) => .ok (.ripRel v, bs)
    | .error e => .error e
  else
    match decodeDisp mod bs with
    | .ok (d, bs) => .ok (.base (reg4 b rm) d, bs)
    | .error e => .error e

/-- The ModRM:r/m operand: the low three bits of a register number or a memory operand (R84). -/
inductive RmOperand where
  | reg (n : BitVec 3)
  | mem (m : MemOp)
deriving DecidableEq, Repr

/-- What follows the escape or the VEX or EVEX bytes: whether the opcode byte is `11`, the `reg` field, the r/m operand. -/
structure Tail where
  op11 : Bool
  reg : BitVec 3
  rm : RmOperand
deriving DecidableEq, Repr

/-- The opcode byte `10` or `11` (R80), the ModRM byte and the bytes of its r/m operand (R84, R86, R90). -/
def decodeTail (x b : Bool) : List Byte → Except DecodeError (Tail × List Byte)
  | op :: mb :: bs =>
    if op = 0x10#8 ∨ op = 0x11#8 then
      if (modRMOf mb).mod = 3#2 then .ok (⟨op == 0x11#8, (modRMOf mb).reg, .reg (modRMOf mb).rm⟩, bs)
      else
        match decodeMem x b (modRMOf mb).mod (modRMOf mb).rm bs with
        | .ok (m, bs) => .ok (⟨op == 0x11#8, (modRMOf mb).reg, .mem m⟩, bs)
        | .error e => .error e
    else .error .notThisInstruction
  | [op] => if op = 0x10#8 ∨ op = 0x11#8 then .error .truncated else .error .notThisInstruction
  | [] => .error .truncated

/-- The refusal of a byte that begins no admitted encoding, or that stands after `F2` where `0F` should (R108). -/
def prefixRefusal (b : Byte) : DecodeError :=
  if b = 0xF0#8 then .lockPrefix
  else if b = 0x66#8 ∨ b = 0xF2#8 ∨ b = 0xF3#8 then .extraPrefix
  else if b = 0x26#8 ∨ b = 0x2E#8 ∨ b = 0x36#8 ∨ b = 0x3E#8 ∨ b = 0x64#8 ∨ b = 0x65#8 then .segmentOverride
  else if b = 0x67#8 then .addressSize
  else if b.extractLsb' 4 4 = 4#4 then .misplacedRex
  else if b = 0xC5#8 ∨ b = 0xC4#8 ∨ b = 0x62#8 then .vexAfterPrefix
  else .notThisInstruction

/-- The legacy form of a tail, `r` and `b` the REX bits (R83, R101). -/
def legacyInstr (rex r b : Bool) (t : Tail) : Instr :=
  match t.op11, t.rm with
  | false, .reg n => .l10r rex (reg4 r t.reg) (reg4 b n)
  | false, .mem m => .l10m rex (reg4 r t.reg) m
  | true, .reg n => .l11r rex (reg4 b n) (reg4 r t.reg)
  | true, .mem m => .l11m rex m (reg4 r t.reg)

/-- The legacy layout after `F2`: an optional REX byte immediately before `0F` (R87, R88; REX.W has no effect). -/
def decodeLegacy : List Byte → Except DecodeError (Instr × List Byte)
  | [] => .error .truncated
  | b0 :: bs =>
    if b0 = 0x0F#8 then
      match decodeTail false false bs with
      | .ok (t, bs) => .ok (legacyInstr false false false t, bs)
      | .error e => .error e
    else if b0.extractLsb' 4 4 = 4#4 then
      match bs with
      | [] => .error .truncated
      | b1 :: bs =>
        if b1 = 0x0F#8 then
          match decodeTail (b0.getLsbD 1) (b0.getLsbD 0) bs with
          | .ok (t, bs) => .ok (legacyInstr true (b0.getLsbD 2) (b0.getLsbD 0) t, bs)
          | .error e => .error e
        else .error (prefixRefusal b1)
    else .error (prefixRefusal b0)

/-- The VEX form of a tail; `vst` is the stored `vvvv` field, an operand (inverted) in register forms only (R96, R102). -/
def vexInstr (vex3 r b : Bool) (vst : BitVec 4) (t : Tail) : Instr :=
  match t.op11, t.rm with
  | false, .reg n => .v10r vex3 (reg4 r t.reg) (~~~vst) (reg4 b n)
  | false, .mem m => .v10m vex3 vst (reg4 r t.reg) m
  | true, .reg n => .v11r vex3 (reg4 b n) (~~~vst) (reg4 r t.reg)
  | true, .mem m => .v11m vex3 vst m (reg4 r t.reg)

/-- The 2-byte VEX layout after `C5`: `R~`, `vvvv`, `L` (ignored), `pp = 11b` (R94, R96). -/
def decodeVex2 : List Byte → Except DecodeError (Instr × List Byte)
  | [] => .error .truncated
  | p :: bs =>
    if p.extractLsb' 0 2 = 3#2 then
      match decodeTail false false bs with
      | .ok (t, bs) => .ok (vexInstr false (!p.getLsbD 7) false (p.extractLsb' 3 4) t, bs)
      | .error e => .error e
    else .error .notThisInstruction

/-- The 3-byte VEX layout after `C4`: `R~ X~ B~ mmmmm`, `W` (ignored) `vvvv L` (ignored) `pp` (R95, R96). -/
def decodeVex3 : List Byte → Except DecodeError (Instr × List Byte)
  | p :: q :: bs =>
    if p.extractLsb' 0 5 = 1#5 ∧ q.extractLsb' 0 2 = 3#2 then
      match decodeTail (!p.getLsbD 6) (!p.getLsbD 5) bs with
      | .ok (t, bs) => .ok (vexInstr true (!p.getLsbD 7) (!p.getLsbD 5) (q.extractLsb' 3 4) t, bs)
      | .error e => .error e
    else .error .notThisInstruction
  | _ => .error .truncated

/-- The EVEX bytes P0, P1, P2 (R97), the stored fields with an inverted single bit already inverted. -/
structure Evex where
  r : Bool
  x : Bool
  b : Bool
  r' : Bool
  vst : BitVec 4
  v' : Bool
  k : BitVec 3
  z : Bool
deriving DecidableEq, Repr

/-- The fields of P0, P1, P2 (R97). -/
def evexOf (p0 p1 p2 : Byte) : Evex where
  r := !p0.getLsbD 7
  x := !p0.getLsbD 6
  b := !p0.getLsbD 5
  r' := !p0.getLsbD 4
  vst := p1.extractLsb' 3 4
  v' := !p2.getLsbD 3
  k := p2.extractLsb' 0 3
  z := p2.getLsbD 7

/-- The EVEX settings R99 lists that the three bytes alone show, refused in this order; `none`: this instruction's. -/
def evexRefusal (p0 p1 p2 : Byte) : Option DecodeError :=
  if p0.extractLsb' 0 2 ≠ 1#2 ∨ p1.extractLsb' 0 2 ≠ 3#2 then some .notThisInstruction
  else if p0.extractLsb' 2 2 ≠ 0#2 ∨ p1.getLsbD 2 = false then some .evexReservedBits
  else if p1.getLsbD 7 = false then some .evexW0
  else if p2.extractLsb' 5 2 = 3#2 then some .evexLength
  else if p2.getLsbD 4 = true then some .evexBroadcast
  else if p2.extractLsb' 0 3 = 0#3 ∧ p2.getLsbD 7 = true then some .evexZeroingNoMask
  else none

/-- The EVEX form of a tail (R83, R101); R99's two settings that depend on the form are refused here. -/
def evexInstr (e : Evex) (t : Tail) : Except DecodeError Instr :=
  match t.op11, t.rm with
  | false, .reg n =>
    .ok (.e10r e.k e.z (reg5 e.r' e.r t.reg) (BitVec.ofBool e.v' ++ ~~~e.vst) (reg5 e.x e.b n))
  | true, .reg n =>
    .ok (.e11r e.k e.z (reg5 e.x e.b n) (BitVec.ofBool e.v' ++ ~~~e.vst) (reg5 e.r' e.r t.reg))
  | false, .mem m =>
    if e.v' then .error .evexVPrime else .ok (.e10m e.k e.z e.vst (reg5 e.r' e.r t.reg) m)
  | true, .mem m =>
    if e.v' then .error .evexVPrime
    else if e.z then .error .evexZeroingStore
    else .ok (.e11m e.k e.vst m (reg5 e.r' e.r t.reg))

/-- The EVEX layout after `62` (R97, R98). -/
def decodeEvex : List Byte → Except DecodeError (Instr × List Byte)
  | p0 :: p1 :: p2 :: bs =>
    match evexRefusal p0 p1 p2 with
    | some err => .error err
    | none =>
      match decodeTail (evexOf p0 p1 p2).x (evexOf p0 p1 p2).b bs with
      | .error err => .error err
      | .ok (t, bs) =>
        match evexInstr (evexOf p0 p1 p2) t with
        | .ok i => .ok (i, bs)
        | .error err => .error err
  | _ => .error .truncated

/-- The decoder: the first byte tells the class (R104). It answers the form and the bytes after it. -/
def decode : List Byte → Except DecodeError (Instr × List Byte)
  | [] => .error .truncated
  | b :: bs =>
    if b = 0xF2#8 then decodeLegacy bs
    else if b = 0xC5#8 then decodeVex2 bs
    else if b = 0xC4#8 then decodeVex3 bs
    else if b = 0x62#8 then decodeEvex bs
    else .error (prefixRefusal b)

/-- The bytes of a displacement (R104). -/
def Disp.len : Disp → Nat
  | .d0 => 0
  | .d8 _ => 1
  | .d32 _ => 4

/-- The bytes a memory operand adds after ModRM: its SIB byte and its displacement (R90, R104). -/
def MemOp.len : MemOp → Nat
  | .base _ d => d.len
  | .ripRel _ => 4
  | .sib _ _ d => 1 + d.len
  | .sibNoBase _ _ => 5

/-- `len`, the instruction's length in bytes (R104). -/
def Instr.len : Instr → Nat
  | .l10r rex _ _ | .l11r rex _ _ => 4 + rex.toNat
  | .l10m rex _ m | .l11m rex m _ => 4 + rex.toNat + m.len
  | .v10r vex3 _ _ _ | .v11r vex3 _ _ _ => 4 + vex3.toNat
  | .v10m vex3 _ _ m | .v11m vex3 _ m _ => 4 + vex3.toNat + m.len
  | .e10r _ _ _ _ _ | .e11r _ _ _ _ _ => 6
  | .e10m _ _ _ _ m | .e11m _ _ m _ => 6 + m.len

/-- A disp32, stored lowest byte first (R90). -/
def disp32Bytes (v : BitVec 32) : List Byte :=
  [v.extractLsb' 0 8, v.extractLsb' 8 8, v.extractLsb' 16 8, v.extractLsb' 24 8]

/-- The `mod` field that announces a displacement (R90). -/
def Disp.modField : Disp → BitVec 2
  | .d0 => 0#2
  | .d8 _ => 1#2
  | .d32 _ => 2#2

/-- The bytes of a displacement (R90). -/
def Disp.bytes : Disp → List Byte
  | .d0 => []
  | .d8 v => [v]
  | .d32 v => disp32Bytes v

/-- The SIB byte of an index and the low bits of a base; no index is code `100b` (R89, R90). -/
def sibFor (i : Option Index) (base : BitVec 3) : Byte :=
  match i with
  | none => sibByte 0#2 4#3 base
  | some ix => sibByte ix.scale (low3 ix.reg) base

/-- ModRM, SIB and displacement of a memory operand (R86, R89, R90). -/
def MemOp.bytes (reg : BitVec 3) : MemOp → List Byte
  | .base b d => modRMByte d.modField reg (low3 b) :: d.bytes
  | .ripRel v => modRMByte 0#2 reg 5#3 :: disp32Bytes v
  | .sib b i d => modRMByte d.modField reg 4#3 :: sibFor i (low3 b) :: d.bytes
  | .sibNoBase i v => modRMByte 0#2 reg 4#3 :: sibFor i 5#3 :: disp32Bytes v

/-- The opcode byte, `10` or `11` (R80). -/
def opByte (op11 : Bool) : Byte := if op11 then 0x11#8 else 0x10#8

/-- ModRM of a register form (R84, R86). -/
def regModRM (reg rm : BitVec 3) : Byte := modRMByte 3#2 reg rm

/-- `F2`, the REX byte if one is asked for (its W bit 0, R88), and `0F` (R87). -/
def legacyHead (rex r x b : Bool) : List Byte :=
  if rex then
    [0xF2#8, 4#4 ++ 0#1 ++ BitVec.ofBool r ++ BitVec.ofBool x ++ BitVec.ofBool b, 0x0F#8]
  else [0xF2#8, 0x0F#8]

/-- The VEX bytes, `L` and `W` written as 0 (R94, R95, R96); `vst` is the stored `vvvv`. -/
def vexHead (vex3 r x b : Bool) (vst : BitVec 4) : List Byte :=
  if vex3 then
    [0xC4#8, BitVec.ofBool (!r) ++ BitVec.ofBool (!x) ++ BitVec.ofBool (!b) ++ 1#5, 0#1 ++ vst ++ 0#1 ++ 3#2]
  else [0xC5#8, BitVec.ofBool (!r) ++ vst ++ 0#1 ++ 3#2]

/-- The EVEX bytes, `L'L` written as 0 (R97, R98). -/
def evexHead (e : Evex) : List Byte :=
  [0x62#8,
   BitVec.ofBool (!e.r) ++ BitVec.ofBool (!e.x) ++ BitVec.ofBool (!e.b) ++ BitVec.ofBool (!e.r') ++ 0#2 ++ 1#2,
   1#1 ++ e.vst ++ 1#1 ++ 3#2,
   BitVec.ofBool e.z ++ 0#2 ++ 0#1 ++ BitVec.ofBool (!e.v') ++ e.k]

/-- Bit 4 of a 5-bit register number (R101). -/
def bit4 (r : BitVec 5) : Bool := r.getLsbD 4

/-- The encoder: bytes of a well-formed decoded form, the ignored bits written as 0 (R87, R94, R95, R97). -/
def encode : Instr → List Byte
  | .l10r rex d src =>
    legacyHead rex (bit3 d) false (bit3 src) ++ [opByte false, regModRM (low3 d) (low3 src)]
  | .l10m rex d m => legacyHead rex (bit3 d) m.bitX m.bitB ++ opByte false :: m.bytes (low3 d)
  | .l11r rex d src =>
    legacyHead rex (bit3 src) false (bit3 d) ++ [opByte true, regModRM (low3 src) (low3 d)]
  | .l11m rex m src => legacyHead rex (bit3 src) m.bitX m.bitB ++ opByte true :: m.bytes (low3 src)
  | .v10r vex3 d s1 s2 =>
    vexHead vex3 (bit3 d) false (bit3 s2) (~~~s1) ++ [opByte false, regModRM (low3 d) (low3 s2)]
  | .v10m vex3 vvvv d m =>
    vexHead vex3 (bit3 d) m.bitX m.bitB vvvv ++ opByte false :: m.bytes (low3 d)
  | .v11r vex3 d s1 s2 =>
    vexHead vex3 (bit3 s2) false (bit3 d) (~~~s1) ++ [opByte true, regModRM (low3 s2) (low3 d)]
  | .v11m vex3 vvvv m src =>
    vexHead vex3 (bit3 src) m.bitX m.bitB vvvv ++ opByte true :: m.bytes (low3 src)
  | .e10r k z d s1 s2 =>
    evexHead ⟨bit3 d, bit4 s2, bit3 s2, bit4 d, ~~~(s1.extractLsb' 0 4), bit4 s1, k, z⟩
      ++ [opByte false, regModRM (low3 d) (low3 s2)]
  | .e10m k z vvvv d m =>
    evexHead ⟨bit3 d, m.bitX, m.bitB, bit4 d, vvvv, false, k, z⟩ ++ opByte false :: m.bytes (low3 d)
  | .e11r k z d s1 s2 =>
    evexHead ⟨bit3 s2, bit4 d, bit3 d, bit4 s2, ~~~(s1.extractLsb' 0 4), bit4 s1, k, z⟩
      ++ [opByte true, regModRM (low3 s2) (low3 d)]
  | .e11m k vvvv m src =>
    evexHead ⟨bit3 src, m.bitX, m.bitB, bit4 src, vvvv, false, k, false⟩ ++ opByte true :: m.bytes (low3 src)

/-- The low `n` bytes of `w`, most significant first. -/
def bytesHighFirst : Nat → Nat → List Byte
  | 0, _ => []
  | n + 1, w => BitVec.ofNat 8 (w / 256 ^ n) :: bytesHighFirst n w

/-- Whether a byte string begins with a byte that tells one of the four classes (R104). -/
def leadsClass : List Byte → Bool
  | b :: _ => b == 0xF2#8 || b == 0xC5#8 || b == 0xC4#8 || b == 0x62#8
  | [] => false

/-- The instruction bytes of a word of spec/opcode_table.json, in address order, padded with zero bytes to the longest
instruction (R104). The table writes the first byte leftmost, in the word's highest bits, and so are they read; a word
that so read begins with no class byte but does when read from its lowest byte is read that way
(notes/assumptions/13.md). -/
def tableBytes (nbits w : Nat) : List Byte :=
  let high := bytesHighFirst ((nbits + 7) / 8) w
  let bytes := if !leadsClass high && leadsClass high.reverse then high.reverse else high
  (bytes ++ List.replicate 11 0#8).take 11

/-- The decoder's answer on a word of spec/opcode_table.json. -/
def decodeTableWord (nbits w : Nat) : Option Instr :=
  match decode (tableBytes nbits w) with
  | .ok (i, _) => some i
  | .error _ => none

end Sys2Proof
end

