-- ==== Sys2Proof/Machine/State.lean ====
section
/-! DEFINITION. Machine/State.lean: the state the spec gives the machine (R20 to R36), as plain data, the reasons a step
can stop (R203 to R210, R99, R108), and the state after reset (R35, R240). -/
namespace Sys2Proof.Machine

/-- The processor mode, `MODE` (R6): 64-bit mode or a 32-bit mode. -/
inductive Mode where
  | mode64 | mode32
deriving DecidableEq, Repr

/-- Memory: the bytes that differ from what an unlisted address reads as, by rising address (R32). -/
abbrev Memory := List Host.Cell

/-- The bytes of the program text, `base .. base+len-1`: the instructions a step may run, which no store may change
(R63, notes/assumptions/10.md). -/
structure TextRange where
  base : Addr
  len : Nat
deriving DecidableEq, Repr

/-- The faults of R205 that a form can raise. A fault is precise: the state is the one before the form (R210). -/
inductive Fault where
  /-- `#UD`, invalid opcode: a memory form with stored `vvvv` not `1111b` (R102), a class absent or not enabled (R203,
  R204). Raised by `vvvvCheck`, `checkLegacy`, `checkVex`, `checkEvex`. Safe: the machine stops as the spec says. -/
  | ud
  /-- `#NM`, device not available: `TS` is set (R203, R204). Raised by the class checks. Safe. -/
  | nm
  /-- `#SS(0)`: a non-canonical address in SS, or the platform's answer (R55, R56). Raised by `memCheck`. Safe. -/
  | ss
  /-- `#GP(0)`: a non-canonical address in DS, or the platform's answer (R55, R56). Raised by `memCheck`. Safe. -/
  | gp
  /-- `#PF(code, ea')`: the platform's answer (R56). Raised by `memCheck`. Safe. DESIGN CHOICE: the code is an
  uninterpreted value of 32 bits, a width R56 and R205 do not give (notes/assumptions/17.md). -/
  | pf (code : BitVec 32) (addr : Addr)
  /-- `#AC(0)`: a misaligned access with `AC_CHECK` (R53). Raised by `accessCheck`. Safe. -/
  | ac
deriving DecidableEq, Repr

/-- The runs the model gives no meaning to (R13, R209). Every one errs toward unprovable, so each is safe. -/
inductive Refusal where
  /-- No meaning for the instruction: raised by an arm of exec alone; no arm raises it. Safe. -/
  | notModelled (mnemonic : String)
  /-- The bytes at `rip` are no admitted encoding (R99, R106, R108). Raised by step. Safe. -/
  | encoding (e : DecodeError)
  /-- The byte layer is for 64-bit mode only (R93). Raised by step in a 32-bit mode. Safe. -/
  | byteLayerIn32
  /-- The instruction at `rip` does not lie in the program text, so it is none of the program's (R63). Raised by
  `textCheck`. Safe. -/
  | outsideText
  /-- A form with a REX byte or a register number above 7 in a 32-bit mode, which no encoding there names (R22, R88,
  R93). Raised by `modeCheck`. Safe. -/
  | notNameableIn32
  /-- Zeroing with no writemask (R99, R177). Raised by `zeroingCheck`. Safe. -/
  | zeroingWithoutMask
  /-- `rip + len` runs past the top of the address space (R27). Raised by `retire`. Safe. -/
  | ripWrap
  /-- An access whose 8 bytes run past the last address (R55). Raised by `memCheck`. Safe. -/
  | accessPastTop
  /-- A store into the program text (R63). Raised by `memCheck`; a masked-off store, which stores nothing, is not
  refused so. Safe. -/
  | storeIntoText
  /-- An access the platform's map assigns to a device, which R59 and R215 ask MemCheck to refuse. Raised by
  `memCheck`; a masked-off form, which accesses nothing, is not refused so. Safe. -/
  | deviceAddress
deriving DecidableEq, Repr

/-- The machine's state. `cfg`, `osSse`, `osAvx`, `osAvx512`, `ts`, `acCheck`, `mode` and `text` are the launch parameters
of R6, R29, R30 and R63; `freeCount` is the model's own (R58, notes/assumptions/8.md). -/
structure State where
  /-- The implementation parameters (R6, R21, R24, R29, R56, R58). -/
  cfg : Config
  /-- `MODE` (R6, R93). -/
  mode : Mode
  /-- `OS_SSE` (R30). -/
  osSse : Bool
  /-- `OS_AVX` (R30). -/
  osAvx : Bool
  /-- `OS_AVX512` (R30). -/
  osAvx512 : Bool
  /-- `TS` (R30). -/
  ts : Bool
  /-- `AC_CHECK` (R53). -/
  acCheck : Bool
  /-- `VR[0..31]` (R20, R22). -/
  vr : Vector VCell 32
  /-- `K[0..7]` (R24), in cells of 64 bits of which the low `KW` exist. -/
  k : Vector (BitVec 64) 8
  /-- `x[0..15]` (R26). -/
  x : Vector (BitVec 64) 16
  /-- `rip` (R27). -/
  rip : Addr
  /-- RFLAGS (R28). -/
  rflags : BitVec 64
  /-- MXCSR (R28). -/
  mxcsr : BitVec 32
  /-- The x87/MMX state R34 names, as its eight data registers. -/
  x87 : Vector (BitVec 80) 8
  /-- The program text (R63). -/
  text : TextRange
  /-- Memory (R32). -/
  mem : Memory
  /-- The model's own: how many free choices have been consumed (R58). -/
  freeCount : Nat
deriving DecidableEq, Repr

/-- The machine after reset. The spec states no reset value (R35): each value here is the model's and stands in
notes/assumptions/1.md to 4.md. The enabling state is that of the launch premises (R240, R242). -/
def State.reset : State where
  cfg := Config.atReset
  mode := .mode64
  osSse := true
  osAvx := true
  osAvx512 := true
  ts := false
  acCheck := false
  vr := Vector.replicate 32 0#512
  k := Vector.replicate 8 0#64
  x := Vector.replicate 16 0#64
  rip := 0xFFFFFFF0#64
  rflags := 2#64
  mxcsr := 0x1F80#32
  x87 := Vector.replicate 8 0#80
  text := ⟨0#64, 0⟩
  mem := []
  freeCount := 0

end Sys2Proof.Machine
end

