-- ==== Sys2Proof/Machine/Ops.lean ====
section
/-! DEFINITION. Machine/Ops.lean: the named operations over memory, registers and the instruction pointer (R8, R20, R26,
R27, R50 to R57), how a check stops a form, and raising an exception (R209, R210). -/
namespace Sys2Proof.Machine

/-- The outcome of a step: a next state, a fault or a refusal (R209). -/
abbrev Result := Host.Outcome State Fault Refusal

/-- What a failed check asks for: a fault of the machine or a refusal of the model (R209). -/
inductive Stop where
  | fault (f : Fault)
  | refuse (r : Refusal)
deriving DecidableEq, Repr

/-- Taking an exception (R8, R209, R210): the step's outcome is the fault, and no register, no memory byte and not `rip`
is changed by the form. R209 decides that delivery to a handler is not part of the machine, and R211 that there is no
return, so this is the whole of it. -/
def raise (f : Fault) : Result := .fault f

/-- A step that stops. -/
def Stop.result : Stop → Result
  | .fault f => raise f
  | .refuse r => .refused r

/-- The pseudocode's order: a check that stops the form stops it before anything after it (R208, R210). -/
def guardOn (c : Option Stop) (k : Result) : Result :=
  match c with
  | none => k
  | some stop => stop.result

/-- The bits of an address, `ADDRW`: 64 in 64-bit mode, 32 in 32-bit modes (R6). -/
def Mode.addrWidth : Mode → Nat
  | .mode64 => 64
  | .mode32 => 32

/-- An address cut to `ADDRW` bits (R54, R136). -/
def Mode.truncate (m : Mode) (a : Addr) : Addr :=
  match m with
  | .mode64 => a
  | .mode32 => (a.setWidth 32).setWidth 64

/-- What an address the memory does not list reads as (DESIGN CHOICE, notes/assumptions/5.md). -/
def Memory.unlisted : Byte := 0#8

/-- The byte at an address (R50). -/
def Memory.read : Memory → Nat → Byte
  | [], _ => Memory.unlisted
  | (b, v) :: rest, a => if b = a then v else Memory.read rest a

/-- The memory with one byte written, in canonical form (R50). -/
def Memory.write : Memory → Nat → Byte → Memory
  | [], a, v => if v = Memory.unlisted then [] else [(a, v)]
  | (b, w) :: rest, a, v =>
    if a < b then
      if v = Memory.unlisted then (b, w) :: rest else (a, v) :: (b, w) :: rest
    else if a = b then
      if v = Memory.unlisted then rest else (a, v) :: rest
    else (b, w) :: Memory.write rest a v

/-- The canonical form from an address up: addresses rise strictly and lie in the address space, and no entry equals
what an unlisted address reads as. -/
def Memory.wfFrom : Nat → Memory → Bool
  | _, [] => true
  | lo, (a, v) :: rest =>
    decide (lo ≤ a) && decide (a < 2 ^ 64) && v != Memory.unlisted && Memory.wfFrom (a + 1) rest

/-- Memory is in canonical form. -/
def Memory.wf (m : Memory) : Bool := Memory.wfFrom 0 m

/-- The eight bytes at an address as one value, the byte at the lowest address in bits 7:0 (R51, R57). -/
def Memory.readQuad (m : Memory) (a : Nat) : Quad :=
  m.read (a + 7) ++ m.read (a + 6) ++ m.read (a + 5) ++ m.read (a + 4) ++ m.read (a + 3) ++ m.read (a + 2)
    ++ m.read (a + 1) ++ m.read a

/-- The bytes of a list written at rising addresses. -/
def Memory.writeBytes : Memory → Nat → List Byte → Memory
  | m, _, [] => m
  | m, a, b :: bs => Memory.writeBytes (m.write a b) (a + 1) bs

/-- Byte `j` of a quadword, bits `8j+7:8j` (R57). -/
def quadByte (v : Quad) (j : Nat) : Byte := v.extractLsb' (8 * j) 8

/-- The bytes of a quadword, bits 7:0 first (R51, R57). -/
def quadBytes (v : Quad) : List Byte :=
  [quadByte v 0, quadByte v 1, quadByte v 2, quadByte v 3, quadByte v 4, quadByte v 5, quadByte v 6, quadByte v 7]

/-- `mem[ea+j] <- v[8j+7:8j]` for `j` in 0..7 (R57). -/
def Memory.writeQuad (m : Memory) (a : Nat) (v : Quad) : Memory := m.writeBytes a (quadBytes v)

/-- The instruction bytes from an address up, at most `n`, none beyond the last address (R32, R51). -/
def Memory.fetch (m : Memory) : Nat → Nat → List Byte
  | _, 0 => []
  | a, n + 1 => if a < 2 ^ 64 then m.read a :: Memory.fetch m (a + 1) n else []

/-- The bytes `step` gives the decoder: from `rip`, at most 15, the longest an instruction may be (R104). -/
def fetchBytes (s : State) : List Byte := s.mem.fetch s.rip.toNat 15

/-- `v[lo+n-1:lo] <- w`, the other bits kept; an empty slice changes nothing (R7). -/
def setSlice {n : Nat} (v : VCell) (lo : Nat) (w : BitVec n) : VCell :=
  (v &&& ~~~((BitVec.allOnes n).setWidth 512 <<< lo)) ||| (w.setWidth 512 <<< lo)

/-- `VR[i]` (R8, R20). -/
def State.vreg (s : State) (i : BitVec 5) : VCell := s.vr[i.toNat]'i.isLt

/-- `VR[i][lo+n-1:lo]` (R8). -/
def State.vslice (s : State) (i : BitVec 5) (lo n : Nat) : BitVec n := (s.vreg i).extractLsb' lo n

/-- The low quadword `VR[i][63:0]` (R20). -/
def State.low (s : State) (i : BitVec 5) : Quad := s.vslice i 0 64

/-- The second quadword `VR[i][127:64]` (R20). -/
def State.high (s : State) (i : BitVec 5) : Quad := s.vslice i 64 64

/-- `VR[i][lo+n-1:lo] <- w` (R8). -/
def State.setVslice {n : Nat} (s : State) (i : BitVec 5) (lo : Nat) (w : BitVec n) : State :=
  { s with vr := s.vr.set i.toNat (setSlice (s.vreg i) lo w) i.isLt }

/-- `VR[i][MAXVL-1:lo] <- 0`, nothing when `MAXVL = lo` (R7, R21). -/
def State.clearFrom (s : State) (i : BitVec 5) (lo : Nat) : State :=
  s.setVslice i lo (0#(s.cfg.maxVl.bits - lo))

/-- `K[j]` (R24). -/
def State.kreg (s : State) (j : BitVec 3) : BitVec 64 := s.k[j.toNat]'j.isLt

/-- `x[i]` (R26). -/
def State.xreg (s : State) (i : BitVec 4) : BitVec 64 := s.x[i.toNat]'i.isLt

/-- `rip <- r` (R27). -/
def State.setRip (s : State) (r : Addr) : State := { s with rip := r }

/-- The memory replaced (R32). -/
def State.setMem (s : State) (m : Memory) : State := { s with mem := m }

/-- One free choice consumed (the model's own, notes/assumptions/8.md). -/
def State.countChoice (s : State) : State := { s with freeCount := s.freeCount + 1 }

/-- `rip <- rip + len`, refused where it would pass the top of the address space (R27, R135). -/
def retire (len : Nat) (s : State) : Result :=
  if s.rip.toNat + len < 2 ^ s.mode.addrWidth then .next (s.setRip (s.rip + BitVec.ofNat 64 len))
  else .refused .ripWrap

/-- The default segment of a memory operand (R91). -/
inductive Seg where
  | ds | ss
deriving DecidableEq, Repr

/-- The fault a non-canonical address raises (R55, R91). -/
def Seg.fault : Seg → Fault
  | .ds => .gp
  | .ss => .ss

/-- Canonical for 48-bit linear addressing: bits 63:47 all equal (R55). -/
def canonical (a : Addr) : Bool :=
  a.extractLsb' 47 17 == 0#17 || a.extractLsb' 47 17 == BitVec.allOnes 17

/-- The answer of the platform's map: its first rule that covers the access (R56, R65). -/
def lookupRule : List MemRule → Addr → AccessKind → MemVerdict
  | [], _, _ => .admits
  | r :: rest, ea, kind =>
    if r.kind = kind ∧ r.lo.toNat ≤ ea.toNat ∧ ea.toNat ≤ r.hi.toNat then r.verdict
    else lookupRule rest ea kind

/-- Whether the 8 bytes at `ea` meet the program text (R63). -/
def TextRange.meets (t : TextRange) (ea : Nat) : Bool :=
  decide (0 < t.len) && decide (ea < t.base.toNat + t.len) && decide (t.base.toNat < ea + 8)

/-- Whether the `n` bytes at `a` all lie in the program text (R63). -/
def TextRange.covers (t : TextRange) (a n : Nat) : Bool :=
  decide (t.base.toNat ≤ a) && decide (a + n ≤ t.base.toNat + t.len)

/-- The program is its text (R63): a step runs no instruction of `len` bytes that does not lie in it. So no byte of an
instruction that runs can have been stored by a form (notes/assumptions/10.md). -/
def textCheck (s : State) (len : Nat) : Option Stop :=
  if s.text.covers s.rip.toNat len = true then none else some (.refuse .outsideText)

/-- The text of a program with an instruction of `n` bytes placed at `a`: as it was where it holds them already, else those
bytes (R63, notes/assumptions/10.md). -/
def TextRange.placed (t : TextRange) (a : Addr) (n : Nat) : TextRange := if t.covers a.toNat n = true then t else ⟨a, n⟩

/-- How many of some bytes are the instruction they begin with (R104); all of them where they begin with none. -/
def placedLen (bytes : List Byte) : Nat :=
  match decode bytes with
  | .ok (i, _) => i.len
  | .error _ => bytes.length

/-- What the model itself gives no meaning (R55, R63): an access past the last address, a store into the program text. -/
def spaceCheck (s : State) (ea : Addr) (kind : AccessKind) : Option Stop :=
  if 2 ^ s.mode.addrWidth ≤ ea.toNat + 7 then some (.refuse .accessPastTop)
  else if kind = .write ∧ s.text.meets ea.toNat = true then some (.refuse .storeIntoText)
  else none

/-- `MemCheck(ea, 8, kind)` (R56): in 64-bit mode the canonical test (R55; both ends of the access,
notes/assumptions/6.md), then the platform's map (R65, R66), then what the model gives no meaning. -/
def memCheck (s : State) (seg : Seg) (ea : Addr) (kind : AccessKind) : Option Stop :=
  if s.mode = .mode64 ∧ (canonical ea && canonical (ea + 7#64)) = false then some (.fault seg.fault)
  else
    match lookupRule s.cfg.memMap ea kind with
    | .pf code offset => some (.fault (.pf code (s.mode.truncate (ea + offset))))
    | .gp => some (.fault .gp)
    | .ss => some (.fault .ss)
    | .device => some (.refuse .deviceAddress)
    | .admits => spaceCheck s ea kind

/-- The checks of `MemRead` and `MemWrite`, in order: `MemCheck`, then the alignment check (R53, R57, R208). -/
def accessCheck (s : State) (seg : Seg) (ea : Addr) (kind : AccessKind) : Option Stop :=
  match memCheck s seg ea kind with
  | some stop => some stop
  | none => if s.acCheck = true ∧ ea.toNat % 8 ≠ 0 then some (.fault .ac) else none

/-- `MemRead(ea, 8)` and what the form does with the value (R57). -/
def memRead (s : State) (seg : Seg) (ea : Addr) (k : Quad → Result) : Result :=
  guardOn (accessCheck s seg ea .read) (k (s.mem.readQuad ea.toNat))

/-- `MemWrite(ea, 8, v)` and what the form does after it (R57). -/
def memWrite (s : State) (seg : Seg) (ea : Addr) (v : Quad) (k : State → Result) : Result :=
  guardOn (accessCheck s seg ea .write) (k (s.setMem (s.mem.writeQuad ea.toNat v)))

/-- What a masked-off access tests: MemCheck, but for the two refusals that are of the access itself and not of its
address (a store into the program text, a device's window): such a form accesses nothing (R58, R63, R59;
notes/assumptions/8.md). -/
def probeCheck (s : State) (seg : Seg) (ea : Addr) (kind : AccessKind) : Option Stop :=
  match memCheck s seg ea kind with
  | some (.refuse .deviceAddress) => none
  | some (.refuse .storeIntoText) => none
  | r => r

/-- `MaskedOffProbe(ea, kind)` and what the form does after it (R58, R173): no data access. Under `either` a rejected
address faults or not as the free value says, and the counter of free choices advances. -/
def maskedOffProbe (s : State) (seg : Seg) (ea : Addr) (kind : AccessKind) (k : State → Result) : Result :=
  match probeCheck s seg ea kind with
  | none => k s
  | some stop =>
    match s.cfg.maskedOffFaults with
    | .never => k s
    | .always => stop.result
    | .either =>
      if Config.freeChoice s.freeCount = true then stop.result
      else k s.countChoice

end Sys2Proof.Machine
end

