-- ==== Sys2Proof/Machine/Operands.lean ====
section
/-! DEFINITION. Machine/Operands.lean: the operand forms: the effective address of an `m64` operand (R90 to R92, R100), its
default segment (R91), the vector register a field names (R101), which forms a 32-bit mode can name (R22, R93). -/
namespace Sys2Proof.Machine

/-- The vector register a legacy or VEX field names, one of 0..15 (R101). -/
def xmm (r : BitVec 4) : BitVec 5 := r.setWidth 5

/-- The value a displacement adds; `scale` multiplies a disp8 only: 1 for legacy and VEX, `N` = 8 for EVEX (R90, R100). -/
def dispValue (scale : Addr) : Disp → Addr
  | .d0 => 0#64
  | .d8 v => v.signExtend 64 * scale
  | .d32 v => v.signExtend 64

/-- `indexv`: 0 with no index, else `x[Xn] << scale` (R90). -/
def indexValue (s : State) : Option Index → Addr
  | none => 0#64
  | some i => s.xreg i.reg <<< i.scale.toNat

/-- The effective address of a memory operand, `ADDRW` bits (R54, R90, R92, R136); `len` is the instruction's length, so
`rip + len` is the `next` of R90. DESIGN CHOICE: where `rip + len` passes the top of the address space, which R27 leaves
open, the address is formed from the wrapped sum, so the form may raise a fault of its access before `retire` refuses the
wrap (notes/assumptions/18.md). -/
def effAddr (s : State) (scale : Addr) (len : Nat) (m : MemOp) : Addr :=
  s.mode.truncate
    (match m with
    | .base b d => s.xreg b + dispValue scale d
    | .ripRel v => s.rip + BitVec.ofNat 64 len + v.signExtend 64
    | .sib b i d => s.xreg b + indexValue s i + dispValue scale d
    | .sibNoBase i v => indexValue s i + v.signExtend 64)

/-- The disp8 scale of the legacy and VEX classes (R90, R100). -/
def plainDisp : Addr := 1#64

/-- `N` of Tuple1 Scalar with a 64-bit element, the disp8 scale of the EVEX class (R100). -/
def tuple1Disp : Addr := 8#64

/-- The segment of a base register: SS for RSP and RBP, numbers 4 and 5 (R91). -/
def baseSeg (b : BitVec 4) : Seg := if b = 4#4 ∨ b = 5#4 then .ss else .ds

/-- The default segment of a memory operand (R91). -/
def segOf : MemOp → Seg
  | .base b _ => baseSeg b
  | .sib b _ _ => baseSeg b
  | .ripRel _ => .ds
  | .sibNoBase _ _ => .ds

/-- Whether a memory operand's registers are among the first eight (R22, R26). -/
def memOpIn32 (m : MemOp) : Bool := !m.bitX && !m.bitB

/-- Whether a 32-bit mode has the form: no REX byte, every register number at most 7 (R22, R26, R88, R93). -/
def nameableIn32 : Instr → Bool
  | .l10r rex d src | .l11r rex d src => !rex && decide (d.toNat < 8) && decide (src.toNat < 8)
  | .l10m rex r m | .l11m rex m r => !rex && decide (r.toNat < 8) && memOpIn32 m
  | .v10r _ d s1 s2 | .v11r _ d s1 s2 => decide (d.toNat < 8) && decide (s1.toNat < 8) && decide (s2.toNat < 8)
  | .v10m _ _ r m | .v11m _ _ m r => decide (r.toNat < 8) && memOpIn32 m
  | .e10r _ _ d s1 s2 | .e11r _ _ d s1 s2 =>
    decide (d.toNat < 8) && decide (s1.toNat < 8) && decide (s2.toNat < 8)
  | .e10m _ _ _ r m | .e11m _ _ m r => decide (r.toNat < 8) && memOpIn32 m

/-- Whether the machine's mode has the form: 64-bit mode has every one (R93). -/
def nameable (mode : Mode) (i : Instr) : Bool :=
  match mode with
  | .mode64 => true
  | .mode32 => nameableIn32 i

/-- A form a 32-bit mode does not have is refused before anything else (R93, R208). -/
def modeCheck (i : Instr) (s : State) : Option Stop :=
  if nameable s.mode i then none else some (.refuse .notNameableIn32)

end Sys2Proof.Machine
end

