-- ==== Sys2Proof/Machine/Flags.lean ====
section
/-! DEFINITION. Machine/Flags.lean: the conditions a form tests: the stored `vvvv` (R102), the class checks (R203, R204),
zeroing without a mask (R99) and the writemask (R170). There is no flag computation: no form reads or writes a flag of
RFLAGS or MXCSR (R28), and no operation of the model touches either register. -/
namespace Sys2Proof.Machine

/-- `if stored vvvv != 1111b then raise #UD` (R102), the memory forms of VEX and EVEX. -/
def vvvvCheck (vvvv : BitVec 4) : Option Stop :=
  if vvvv = 15#4 then none else some (.fault .ud)

/-- A class check: `#UD` unless the class is present and enabled, then `#NM` if `TS` (R203, R204, R208). -/
def classCheck (has os ts : Bool) : Option Stop :=
  if (has && os) = false then some (.fault .ud)
  else if ts = true then some (.fault .nm)
  else none

/-- `CheckLegacy()` (R203). -/
def checkLegacy (s : State) : Option Stop := classCheck s.cfg.hasSse2 s.osSse s.ts

/-- `CheckVEX()` (R203). -/
def checkVex (s : State) : Option Stop := classCheck s.cfg.hasAvx s.osAvx s.ts

/-- `CheckEVEX()` (R204). -/
def checkEvex (s : State) : Option Stop := classCheck s.cfg.hasAvx512f s.osAvx512 s.ts

/-- `z = 1` with `k = 000b` is refused (R99, R177). -/
def zeroingCheck (k : BitVec 3) (z : Bool) : Option Stop :=
  if k = 0#3 ∧ z = true then some (.refuse .zeroingWithoutMask) else none

/-- `M = (k = 000b) or (K[k][0] = 1)` (R170). -/
def maskOn (s : State) (k : BitVec 3) : Bool := k == 0#3 || (s.kreg k).getLsbD 0

end Sys2Proof.Machine
end

