-- ==== Sys2Proof/Machine/Vex.lean ====
section
/-! DEFINITION. Machine/Vex.lean: VMOVSD, the VEX forms (R150 to R154). -/
namespace Sys2Proof.Machine

/-- `VR[d][63:0] <- a`, `VR[d][127:64] <- b`, `VR[d][MAXVL-1:128] <- 0` (R151). -/
def mergeInto (s : State) (d : BitVec 5) (a b : Quad) : State :=
  ((s.setVslice d 0 a).setVslice d 64 b).clearFrom d 128

/-- `VR[d][63:0] <- t`, `VR[d][MAXVL-1:64] <- 0` (R152). -/
def loadClearing (s : State) (d : BitVec 5) (t : Quad) : State := (s.setVslice d 0 t).clearFrom d 64

/-- `V10R`, `VMOVSD xmm1, xmm2, xmm3`, opcode `10` (R151). -/
def execV10R (vex3 : Bool) (d s1 s2 : BitVec 4) (s : State) : Result :=
  guardOn (modeCheck (.v10r vex3 d s1 s2) s) <|
  guardOn (checkVex s) <|
  retire (Instr.v10r vex3 d s1 s2).len (mergeInto s (xmm d) (s.low (xmm s2)) (s.high (xmm s1)))

/-- `V10M`, `VMOVSD xmm1, m64` (R152). -/
def execV10M (vex3 : Bool) (vvvv d : BitVec 4) (m : MemOp) (s : State) : Result :=
  guardOn (modeCheck (.v10m vex3 vvvv d m) s) <|
  guardOn (vvvvCheck vvvv) <|
  guardOn (checkVex s) <|
  memRead s (segOf m) (effAddr s plainDisp (Instr.v10m vex3 vvvv d m).len m) fun t =>
  retire (Instr.v10m vex3 vvvv d m).len (loadClearing s (xmm d) t)

/-- `V11R`, `VMOVSD xmm1, xmm2, xmm3`, opcode `11` (R153). -/
def execV11R (vex3 : Bool) (d s1 s2 : BitVec 4) (s : State) : Result :=
  guardOn (modeCheck (.v11r vex3 d s1 s2) s) <|
  guardOn (checkVex s) <|
  retire (Instr.v11r vex3 d s1 s2).len (mergeInto s (xmm d) (s.low (xmm s2)) (s.high (xmm s1)))

/-- `V11M`, `VMOVSD m64, xmm1` (R154). -/
def execV11M (vex3 : Bool) (vvvv : BitVec 4) (m : MemOp) (src : BitVec 4) (s : State) : Result :=
  guardOn (modeCheck (.v11m vex3 vvvv m src) s) <|
  guardOn (vvvvCheck vvvv) <|
  guardOn (checkVex s) <|
  memWrite s (segOf m) (effAddr s plainDisp (Instr.v11m vex3 vvvv m src).len m) (s.low (xmm src)) fun t =>
  retire (Instr.v11m vex3 vvvv m src).len t

end Sys2Proof.Machine
end

