-- ==== Sys2Proof/Machine/Evex.lean ====
section
/-! DEFINITION. Machine/Evex.lean: VMOVSD, the EVEX forms (R170 to R175). -/
namespace Sys2Proof.Machine

/-- The low quadword a masked-off register destination ends with: kept when merging, 0 when zeroing (R170, R177). -/
def maskedOffLow (s : State) (d : BitVec 5) (z : Bool) : Quad := if z then 0#64 else s.low d

/-- The body of `E10R` and `E11R`: the mask governs the low quadword alone (R171, R172, R174). -/
def mergeMasked (s : State) (k : BitVec 3) (z : Bool) (d s1 s2 : BitVec 5) : State :=
  mergeInto s d (if maskOn s k then s.low s2 else maskedOffLow s d z) (s.high s1)

/-- `E10R`, `VMOVSD xmm1 k1 z, xmm2, xmm3`, opcode `10` (R172). -/
def execE10R (k : BitVec 3) (z : Bool) (d s1 s2 : BitVec 5) (s : State) : Result :=
  guardOn (modeCheck (.e10r k z d s1 s2) s) <|
  guardOn (zeroingCheck k z) <|
  guardOn (checkEvex s) <|
  retire (Instr.e10r k z d s1 s2).len (mergeMasked s k z d s1 s2)

/-- `E10M`, `VMOVSD xmm1 k1 z, m64` (R173). -/
def execE10M (k : BitVec 3) (z : Bool) (vvvv : BitVec 4) (d : BitVec 5) (m : MemOp) (s : State) : Result :=
  guardOn (modeCheck (.e10m k z vvvv d m) s) <|
  guardOn (zeroingCheck k z) <|
  guardOn (vvvvCheck vvvv) <|
  guardOn (checkEvex s) <|
  if maskOn s k then
    memRead s (segOf m) (effAddr s tuple1Disp (Instr.e10m k z vvvv d m).len m) fun t =>
    retire (Instr.e10m k z vvvv d m).len (loadClearing s d t)
  else
    maskedOffProbe s (segOf m) (effAddr s tuple1Disp (Instr.e10m k z vvvv d m).len m) .read fun t =>
    retire (Instr.e10m k z vvvv d m).len (loadClearing t d (maskedOffLow t d z))

/-- `E11R`, `VMOVSD xmm1 k1 z, xmm2, xmm3`, opcode `11` (R174). -/
def execE11R (k : BitVec 3) (z : Bool) (d s1 s2 : BitVec 5) (s : State) : Result :=
  guardOn (modeCheck (.e11r k z d s1 s2) s) <|
  guardOn (zeroingCheck k z) <|
  guardOn (checkEvex s) <|
  retire (Instr.e11r k z d s1 s2).len (mergeMasked s k z d s1 s2)

/-- `E11M`, `VMOVSD m64 k1, xmm1` (R175). -/
def execE11M (k : BitVec 3) (vvvv : BitVec 4) (m : MemOp) (src : BitVec 5) (s : State) : Result :=
  guardOn (modeCheck (.e11m k vvvv m src) s) <|
  guardOn (vvvvCheck vvvv) <|
  guardOn (checkEvex s) <|
  if maskOn s k then
    memWrite s (segOf m) (effAddr s tuple1Disp (Instr.e11m k vvvv m src).len m) (s.low src) fun t =>
    retire (Instr.e11m k vvvv m src).len t
  else
    maskedOffProbe s (segOf m) (effAddr s tuple1Disp (Instr.e11m k vvvv m src).len m) .write fun t =>
    retire (Instr.e11m k vvvv m src).len t

end Sys2Proof.Machine
end

