-- ==== Sys2Proof/Machine/Legacy.lean ====
section
/-! DEFINITION. Machine/Legacy.lean: MOVSD, the legacy SSE forms (R131 to R134). -/
namespace Sys2Proof.Machine

/-- `VR[d][63:0] <- VR[src][63:0]`, the rest of `VR[d]` unchanged (R131, R133). -/
def moveLow (s : State) (d src : BitVec 5) : State := s.setVslice d 0 (s.low src)

/-- `VR[d][63:0] <- t`, `VR[d][127:64] <- 0`, the bits above unchanged (R132). -/
def loadLegacy (s : State) (d : BitVec 5) (t : Quad) : State := (s.setVslice d 0 t).setVslice d 64 0#64

/-- `L10R`, `MOVSD xmm1, xmm2`, opcode `10` (R131). -/
def execL10R (rex : Bool) (d src : BitVec 4) (s : State) : Result :=
  guardOn (modeCheck (.l10r rex d src) s) <|
  guardOn (checkLegacy s) <|
  retire (Instr.l10r rex d src).len (moveLow s (xmm d) (xmm src))

/-- `L10M`, `MOVSD xmm1, m64` (R132). -/
def execL10M (rex : Bool) (d : BitVec 4) (m : MemOp) (s : State) : Result :=
  guardOn (modeCheck (.l10m rex d m) s) <|
  guardOn (checkLegacy s) <|
  memRead s (segOf m) (effAddr s plainDisp (Instr.l10m rex d m).len m) fun t =>
  retire (Instr.l10m rex d m).len (loadLegacy s (xmm d) t)

/-- `L11R`, `MOVSD xmm1, xmm2`, opcode `11` (R133). -/
def execL11R (rex : Bool) (d src : BitVec 4) (s : State) : Result :=
  guardOn (modeCheck (.l11r rex d src) s) <|
  guardOn (checkLegacy s) <|
  retire (Instr.l11r rex d src).len (moveLow s (xmm d) (xmm src))

/-- `L11M`, `MOVSD m64, xmm2` (R134). -/
def execL11M (rex : Bool) (m : MemOp) (src : BitVec 4) (s : State) : Result :=
  guardOn (modeCheck (.l11m rex m src) s) <|
  guardOn (checkLegacy s) <|
  memWrite s (segOf m) (effAddr s plainDisp (Instr.l11m rex m src).len m) (s.low (xmm src)) fun t =>
  retire (Instr.l11m rex m src).len t

end Sys2Proof.Machine
end

