-- ==== Sys2Proof/Machine/Dispatch.lean ====
section
/-! DEFINITION. Machine/Dispatch.lean: one arm per decoded form of R83. -/
namespace Sys2Proof.Machine

def exec (i : Instr) (s : State) : Host.Outcome State Fault Refusal :=
  match i with
  -- the legacy SSE forms
  | .l10r rex d src => Sys2Proof.Machine.execL10R rex d src s
  | .l10m rex d m => Sys2Proof.Machine.execL10M rex d m s
  | .l11r rex d src => Sys2Proof.Machine.execL11R rex d src s
  | .l11m rex m src => Sys2Proof.Machine.execL11M rex m src s
  -- the VEX forms
  | .v10r vex3 d s1 s2 => Sys2Proof.Machine.execV10R vex3 d s1 s2 s
  | .v10m vex3 vvvv d m => Sys2Proof.Machine.execV10M vex3 vvvv d m s
  | .v11r vex3 d s1 s2 => Sys2Proof.Machine.execV11R vex3 d s1 s2 s
  | .v11m vex3 vvvv m src => Sys2Proof.Machine.execV11M vex3 vvvv m src s
  -- the EVEX forms
  | .e10r k z d s1 s2 => Sys2Proof.Machine.execE10R k z d s1 s2 s
  | .e10m k z vvvv d m => Sys2Proof.Machine.execE10M k z vvvv d m s
  | .e11r k z d s1 s2 => Sys2Proof.Machine.execE11R k z d s1 s2 s
  | .e11m k vvvv m src => Sys2Proof.Machine.execE11M k vvvv m src s

end Sys2Proof.Machine
end

