-- ==== Sys2Proof/Machine/Step.lean ====
section
/-! DEFINITION. Machine/Step.lean: one step: fetch at `rip`, decode, execute (R27, R93, R209), and the host's way to place
an instruction where the next step fetches it. -/
namespace Sys2Proof.Machine

/-- One step. In a 32-bit mode the byte layer gives no meaning (R93); bytes that are no admitted encoding are refused
(R106), and so is an instruction outside the program text (R63); else the step is the decoded form's (R83). -/
def step (s : State) : Host.Outcome State Fault Refusal :=
  match s.mode with
  | .mode32 => .refused .byteLayerIn32
  | .mode64 =>
    match decode (fetchBytes s) with
    | .error e => .refused (.encoding e)
    | .ok (i, _) => guardOn (textCheck s i.len) (exec i s)

/-- `s` with the bytes of a word of spec/opcode_table.json (`tableBytes`) stored at `rip` and, where the program text does
not hold that instruction already, the text made that instruction's bytes (R63, R241). Nothing else changes. -/
def State.withFetchWord (s : State) (nbits w : Nat) : State :=
  { s with
    mem := s.mem.writeBytes s.rip.toNat (tableBytes nbits w)
    text := s.text.placed s.rip (placedLen (tableBytes nbits w)) }

end Sys2Proof.Machine
end

