-- ==== Sys2Proof/Safety.lean ====
section
/-! DEFINITION. Safety.lean: the terms claims are made in: the invariant of well-formed states, the premises under which a
form completes (R242, R66, R27), what a form writes, and what it leaves alone (R34). -/
namespace Sys2Proof.Machine

/-- A well-formed state: memory in canonical form, parameters consistent (R21), no bit of a register above its width
(R20, R24), no register 16 to 31 without AVX512F (R22), `rip` within `ADDRW` (R27). -/
structure Inv (s : State) : Prop where
  memory : s.mem.wf = true
  consistent : s.cfg.consistent = true
  vectorWidth : ∀ (i : BitVec 5) (j : Nat), s.cfg.maxVl.bits ≤ j → (s.vreg i).getLsbD j = false
  upperFile : s.cfg.hasAvx512f = false → ∀ i : BitVec 5, 16 ≤ i.toNat → s.vreg i = 0#512
  maskWidth : ∀ (k : BitVec 3) (j : Nat), s.cfg.maskWidth.bits ≤ j → (s.kreg k).getLsbD j = false
  rip : s.rip.toNat < 2 ^ s.mode.addrWidth

/-- The three encoding classes (R2). -/
inductive Class where
  | legacy | vex | evex
deriving DecidableEq, Repr

/-- The class of a form (R83). -/
def classOf : Instr → Class
  | .l10r .. | .l10m .. | .l11r .. | .l11m .. => .legacy
  | .v10r .. | .v10m .. | .v11r .. | .v11m .. => .vex
  | .e10r .. | .e10m .. | .e11r .. | .e11m .. => .evex

/-- The CPUID feature flag of a class (R2, R29). -/
def State.hasClass (s : State) : Class → Bool
  | .legacy => s.cfg.hasSse2
  | .vex => s.cfg.hasAvx
  | .evex => s.cfg.hasAvx512f

/-- The operating-system enabling of a class (R30). -/
def State.osClass (s : State) : Class → Bool
  | .legacy => s.osSse
  | .vex => s.osAvx
  | .evex => s.osAvx512

/-- The launch premises of a form's class (R242): present, enabled, `TS` clear. -/
def Ready (s : State) (i : Instr) : Prop :=
  s.hasClass (classOf i) = true ∧ s.osClass (classOf i) = true ∧ s.ts = false

/-- The machine's mode has the form (R22, R93). -/
def HasForm (s : State) (i : Instr) : Prop := nameable s.mode i = true

/-- `rip + len` stays in the address space (R27). -/
def RipRoom (s : State) (i : Instr) : Prop := s.rip.toNat + i.len < 2 ^ s.mode.addrWidth

/-- MemCheck admits the access and the alignment check does not stop it (R53, R56, R66). -/
def Admitted (s : State) (seg : Seg) (ea : Addr) (kind : AccessKind) : Prop :=
  memCheck s seg ea kind = none ∧ (s.acCheck = true → ea.toNat % 8 = 0)

/-- The stored `vvvv` field of the forms that reserve it (R102). -/
def reservedVvvv : Instr → Option (BitVec 4)
  | .v10m _ v _ _ | .v11m _ v _ _ | .e10m _ _ v _ _ | .e11m _ v _ _ => some v
  | _ => none

/-- The writemask selector and zeroing bit of an EVEX form (R83); `E11M` has no zeroing bit. -/
def maskOf : Instr → Option (BitVec 3 × Bool)
  | .e10r k z _ _ _ | .e10m k z _ _ _ | .e11r k z _ _ _ => some (k, z)
  | .e11m k _ _ _ => some (k, false)
  | _ => none

/-- Whether the form moves its datum: no writemask, or the mask bit set (R170). -/
def active (s : State) (i : Instr) : Bool :=
  match maskOf i with
  | some (k, _) => maskOn s k
  | none => true

/-- Zeroing without a writemask, which R99 and R177 refuse. -/
def zeroingNoMask (i : Instr) : Bool :=
  match maskOf i with
  | some (k, z) => k == 0#3 && z
  | none => false

/-- The memory operand of a form: its operand, the kind of its access, its disp8 scale (R83, R100, R137). -/
def memOperand : Instr → Option (MemOp × AccessKind × Addr)
  | .l10m _ _ m | .v10m _ _ _ m => some (m, .read, plainDisp)
  | .l11m _ m _ | .v11m _ _ m _ => some (m, .write, plainDisp)
  | .e10m _ _ _ _ m => some (m, .read, tuple1Disp)
  | .e11m _ _ m _ => some (m, .write, tuple1Disp)
  | _ => none

/-- The address a form stores to: that of its memory operand, if it is a store and active (R137, R175). -/
def storeTarget (s : State) (i : Instr) : Option Addr :=
  match memOperand i with
  | some (m, .write, scale) => if active s i then some (effAddr s scale i.len m) else none
  | _ => none

/-- The vector register a form writes (R83). -/
def destOf : Instr → Option (BitVec 5)
  | .l10r _ d _ | .l10m _ d _ | .l11r _ d _ => some (xmm d)
  | .v10r _ d _ _ | .v10m _ _ d _ | .v11r _ d _ _ => some (xmm d)
  | .e10r _ _ d _ _ | .e10m _ _ _ d _ | .e11r _ _ d _ _ => some d
  | .l11m .. | .v11m .. | .e11m .. => none

/-- The vector register a store form reads (R83). -/
def storeSource : Instr → Option (BitVec 5)
  | .l11m _ _ src | .v11m _ _ _ src => some (xmm src)
  | .e11m _ _ _ src => some src
  | _ => none

/-- What no form changes: the parameters, the enabling state, the opmask, general, flag, MXCSR and x87/MMX registers and
the extent of the program text (R25, R26, R28, R30, R34, R63). -/
structure ControlKept (s t : State) : Prop where
  cfg : t.cfg = s.cfg
  mode : t.mode = s.mode
  osSse : t.osSse = s.osSse
  osAvx : t.osAvx = s.osAvx
  osAvx512 : t.osAvx512 = s.osAvx512
  ts : t.ts = s.ts
  acCheck : t.acCheck = s.acCheck
  k : t.k = s.k
  x : t.x = s.x
  rflags : t.rflags = s.rflags
  mxcsr : t.mxcsr = s.mxcsr
  x87 : t.x87 = s.x87
  text : t.text = s.text

/-- A step that writes one vector register and `rip` and nothing else (R34). -/
structure OnlyReg (d : BitVec 5) (s t : State) : Prop where
  control : ControlKept s t
  others : ∀ r : BitVec 5, r ≠ d → t.vreg r = s.vreg r
  memory : ∀ a : Nat, t.mem.read a = s.mem.read a
  freeCount : t.freeCount = s.freeCount

/-- A step that writes the 8 bytes at `ea` and `rip` and nothing else (R34, R137). -/
structure OnlyQuad (ea : Addr) (s t : State) : Prop where
  control : ControlKept s t
  vectors : ∀ r : BitVec 5, t.vreg r = s.vreg r
  memory : ∀ a : Nat, a < ea.toNat ∨ ea.toNat + 8 ≤ a → t.mem.read a = s.mem.read a
  freeCount : t.freeCount = s.freeCount

/-- An outcome with a change applied to its next state. -/
def mapNext (f : State → State) : Result → Result
  | .next t => .next (f t)
  | .fault e => .fault e
  | .refused r => .refused r

end Sys2Proof.Machine
end

