-- ==== Sys2Proof/Certificates/Slice0/Obligations.lean ====
section
/-! DEFINITION. Certificates/Slice0/Obligations.lean: the statements for the provers. Unless a docstring says otherwise each
holds in every state, reachable or not, and in both processor modes. -/

open Sys2Proof Sys2Proof.Machine

/-- R131, R133: a legacy register move copies the low quadword and keeps every other bit of its destination; it completes
wherever the class is present and enabled and there is room for `rip`. -/
def Obligations.LegacyRegisterMove : Prop :=
  ∀ (rex : Bool) (d src : BitVec 4) (i : Instr) (s : State),
    i = .l10r rex d src ∨ i = .l11r rex d src → HasForm s i → Ready s i → RipRoom s i →
    ∃ t, exec i s = .next t ∧ t.low (xmm d) = s.low (xmm src) ∧
      (∀ j, 64 ≤ j → (t.vreg (xmm d)).getLsbD j = (s.vreg (xmm d)).getLsbD j) ∧
      t.rip = s.rip + BitVec.ofNat 64 i.len ∧ OnlyReg (xmm d) s t

/-- R132: the legacy load puts the memory quadword in bits 63:0, clears bits 127:64 and keeps the bits above. -/
def Obligations.LegacyLoad : Prop :=
  ∀ (rex : Bool) (d : BitVec 4) (m : MemOp) (i : Instr) (ea : Addr) (s : State),
    i = .l10m rex d m → ea = effAddr s plainDisp i.len m →
    HasForm s i → Ready s i → RipRoom s i → Admitted s (segOf m) ea .read →
    ∃ t, exec i s = .next t ∧ t.low (xmm d) = s.mem.readQuad ea.toNat ∧ t.high (xmm d) = 0#64 ∧
      (∀ j, 128 ≤ j → (t.vreg (xmm d)).getLsbD j = (s.vreg (xmm d)).getLsbD j) ∧
      t.rip = s.rip + BitVec.ofNat 64 i.len ∧ OnlyReg (xmm d) s t

/-- R134, R154: the legacy and the VEX store write the low quadword of their source, byte by byte, to the eight bytes at
the effective address and nothing else. That a written byte is read back needs memory in canonical form
(`Obligations.StepKeepsInvariant`). -/
def Obligations.LegacyAndVexStore : Prop :=
  ∀ (wide : Bool) (m : MemOp) (src : BitVec 4) (i : Instr) (ea : Addr) (s : State),
    i = .l11m wide m src ∨ i = .v11m wide 15#4 m src → ea = effAddr s plainDisp i.len m →
    HasForm s i → Ready s i → RipRoom s i → Admitted s (segOf m) ea .write →
    ∃ t, exec i s = .next t ∧
      (s.mem.wf = true → ∀ j, j < 8 → t.mem.read (ea.toNat + j) = quadByte (s.low (xmm src)) j) ∧
      t.rip = s.rip + BitVec.ofNat 64 i.len ∧ OnlyQuad ea s t

/-- R151, R153: a VEX register form merges the low quadword of its second source with bits 127:64 of its first and clears
every bit of the destination above 127, whatever registers coincide. -/
def Obligations.VexRegisterMerge : Prop :=
  ∀ (vex3 : Bool) (d s1 s2 : BitVec 4) (i : Instr) (s : State),
    i = .v10r vex3 d s1 s2 ∨ i = .v11r vex3 d s1 s2 → HasForm s i → Ready s i → RipRoom s i →
    ∃ t, exec i s = .next t ∧ t.low (xmm d) = s.low (xmm s2) ∧ t.high (xmm d) = s.high (xmm s1) ∧
      (∀ j, 128 ≤ j → j < s.cfg.maxVl.bits → (t.vreg (xmm d)).getLsbD j = false) ∧
      t.rip = s.rip + BitVec.ofNat 64 i.len ∧ OnlyReg (xmm d) s t

/-- R152: the VEX load puts the memory quadword in bits 63:0 and clears every bit above. -/
def Obligations.VexLoad : Prop :=
  ∀ (vex3 : Bool) (d : BitVec 4) (m : MemOp) (i : Instr) (ea : Addr) (s : State),
    i = .v10m vex3 15#4 d m → ea = effAddr s plainDisp i.len m →
    HasForm s i → Ready s i → RipRoom s i → Admitted s (segOf m) ea .read →
    ∃ t, exec i s = .next t ∧ t.low (xmm d) = s.mem.readQuad ea.toNat ∧
      (∀ j, 64 ≤ j → j < s.cfg.maxVl.bits → (t.vreg (xmm d)).getLsbD j = false) ∧
      t.rip = s.rip + BitVec.ofNat 64 i.len ∧ OnlyReg (xmm d) s t

/-- R172, R174, R171: an EVEX register form. The mask governs bits 63:0 alone: the second source's where the mask is on,
kept where it is off and merging, 0 where it is off and zeroing. -/
def Obligations.EvexRegisterMerge : Prop :=
  ∀ (k : BitVec 3) (z : Bool) (d s1 s2 : BitVec 5) (i : Instr) (s : State),
    i = .e10r k z d s1 s2 ∨ i = .e11r k z d s1 s2 → ¬ (k = 0#3 ∧ z = true) →
    HasForm s i → Ready s i → RipRoom s i →
    ∃ t, exec i s = .next t ∧
      (k = 0#3 ∨ (s.kreg k).getLsbD 0 = true → t.low d = s.low s2) ∧
      (k ≠ 0#3 → (s.kreg k).getLsbD 0 = false → z = false → t.low d = s.low d) ∧
      (k ≠ 0#3 → (s.kreg k).getLsbD 0 = false → z = true → t.low d = 0#64) ∧
      t.high d = s.high s1 ∧
      (∀ j, 128 ≤ j → j < s.cfg.maxVl.bits → (t.vreg d).getLsbD j = false) ∧
      t.rip = s.rip + BitVec.ofNat 64 i.len ∧ OnlyReg d s t

/-- R171: the writemask governs bits 63:0 alone. Whatever the mask, merging or zeroing, a register form that completes
copies bits 127:64 of its first source and clears the bits above, a load clears every bit above 63, and a form's outcome
does not depend on any bit of the opmask file but bit 0 of the selected register. -/
def Obligations.MaskGovernsLowQuadword : Prop :=
  (∀ (k : BitVec 3) (z : Bool) (d s1 s2 : BitVec 5) (i : Instr) (s t : State),
    i = .e10r k z d s1 s2 ∨ i = .e11r k z d s1 s2 → exec i s = .next t →
      t.high d = s.high s1 ∧ ∀ j, 128 ≤ j → j < s.cfg.maxVl.bits → (t.vreg d).getLsbD j = false) ∧
  (∀ (k : BitVec 3) (z : Bool) (vvvv : BitVec 4) (d : BitVec 5) (m : MemOp) (s t : State),
    exec (.e10m k z vvvv d m) s = .next t →
      ∀ j, 64 ≤ j → j < s.cfg.maxVl.bits → (t.vreg d).getLsbD j = false) ∧
  (∀ (k : BitVec 3) (z : Bool) (i : Instr) (s : State) (ks : Vector (BitVec 64) 8), maskOf i = some (k, z) →
    (k ≠ 0#3 → ({ s with k := ks }.kreg k).getLsbD 0 = (s.kreg k).getLsbD 0) →
    exec i { s with k := ks } = mapNext (fun t => { t with k := ks }) (exec i s))

/-- R137: what a load puts in its register and a store in memory, class by class, for every memory form that completes and
whose mask, if it has one, is on; a store changes nothing else, and no form changes a base or index register. -/
def Obligations.LoadsAndStoresByClass : Prop :=
  ∀ (i : Instr) (m : MemOp) (kind : AccessKind) (scale ea : Addr) (s t : State),
    memOperand i = some (m, kind, scale) → ea = effAddr s scale i.len m → active s i = true → exec i s = .next t →
    ControlKept s t ∧ t.freeCount = s.freeCount ∧
    (kind = .read → (∀ a, t.mem.read a = s.mem.read a) ∧
      ∃ d, destOf i = some d ∧ t.low d = s.mem.readQuad ea.toNat ∧
        (classOf i = .legacy → t.high d = 0#64 ∧ ∀ j, 128 ≤ j → (t.vreg d).getLsbD j = (s.vreg d).getLsbD j) ∧
        (classOf i ≠ .legacy → ∀ j, 64 ≤ j → j < s.cfg.maxVl.bits → (t.vreg d).getLsbD j = false)) ∧
    (kind = .write → (∀ r, t.vreg r = s.vreg r) ∧
      (∀ a, a < ea.toNat ∨ ea.toNat + 8 ≤ a → t.mem.read a = s.mem.read a) ∧
      ∃ src, storeSource i = some src ∧
        (s.mem.wf = true → ∀ j, j < 8 → t.mem.read (ea.toNat + j) = quadByte (s.low src) j))

/-- R173 with the mask on: the EVEX load, its disp8 scaled by 8. -/
def Obligations.EvexLoadMaskOn : Prop :=
  ∀ (k : BitVec 3) (z : Bool) (d : BitVec 5) (m : MemOp) (i : Instr) (ea : Addr) (s : State),
    i = .e10m k z 15#4 d m → ea = effAddr s tuple1Disp i.len m → ¬ (k = 0#3 ∧ z = true) →
    k = 0#3 ∨ (s.kreg k).getLsbD 0 = true →
    HasForm s i → Ready s i → RipRoom s i → Admitted s (segOf m) ea .read →
    ∃ t, exec i s = .next t ∧ t.low d = s.mem.readQuad ea.toNat ∧
      (∀ j, 64 ≤ j → j < s.cfg.maxVl.bits → (t.vreg d).getLsbD j = false) ∧
      t.rip = s.rip + BitVec.ofNat 64 i.len ∧ OnlyReg d s t

/-- R173 with the mask off, where `MaskedOffProbe` rejects nothing (MemCheck admits the address, or refuses only the access
itself: notes/assumptions/8.md) or `MASKED_OFF_FAULTS` is `never`: no data is read, the low quadword is kept or zeroed,
and the bits above are cleared all the same. -/
def Obligations.EvexLoadMaskOff : Prop :=
  ∀ (k : BitVec 3) (z : Bool) (d : BitVec 5) (m : MemOp) (i : Instr) (ea : Addr) (s : State),
    i = .e10m k z 15#4 d m → ea = effAddr s tuple1Disp i.len m →
    k ≠ 0#3 → (s.kreg k).getLsbD 0 = false →
    probeCheck s (segOf m) ea .read = none ∨ s.cfg.maskedOffFaults = .never →
    HasForm s i → Ready s i → RipRoom s i →
    ∃ t, exec i s = .next t ∧ t.low d = (if z = true then 0#64 else s.low d) ∧
      (∀ j, 64 ≤ j → j < s.cfg.maxVl.bits → (t.vreg d).getLsbD j = false) ∧
      t.rip = s.rip + BitVec.ofNat 64 i.len ∧ OnlyReg d s t

/-- R175 with the mask on: the EVEX store, its disp8 scaled by 8. -/
def Obligations.EvexStoreMaskOn : Prop :=
  ∀ (k : BitVec 3) (m : MemOp) (src : BitVec 5) (i : Instr) (ea : Addr) (s : State),
    i = .e11m k 15#4 m src → ea = effAddr s tuple1Disp i.len m →
    k = 0#3 ∨ (s.kreg k).getLsbD 0 = true →
    HasForm s i → Ready s i → RipRoom s i → Admitted s (segOf m) ea .write →
    ∃ t, exec i s = .next t ∧
      (s.mem.wf = true → ∀ j, j < 8 → t.mem.read (ea.toNat + j) = quadByte (s.low src) j) ∧
      t.rip = s.rip + BitVec.ofNat 64 i.len ∧ OnlyQuad ea s t

/-- R175 with the mask off, where `MaskedOffProbe` rejects nothing (MemCheck admits the address, or refuses only the access
itself: notes/assumptions/8.md) or `MASKED_OFF_FAULTS` is `never`: only `rip` changes. -/
def Obligations.EvexStoreMaskOff : Prop :=
  ∀ (k : BitVec 3) (m : MemOp) (src : BitVec 5) (i : Instr) (ea : Addr) (s : State),
    i = .e11m k 15#4 m src → ea = effAddr s tuple1Disp i.len m →
    k ≠ 0#3 → (s.kreg k).getLsbD 0 = false →
    probeCheck s (segOf m) ea .write = none ∨ s.cfg.maskedOffFaults = .never →
    HasForm s i → Ready s i → RipRoom s i →
    exec i s = .next (s.setRip (s.rip + BitVec.ofNat 64 i.len))

/-- R58 (the free value is notes/assumptions/8.md): a masked-off memory form whose address MemCheck rejects. Under
`always` it stops as MemCheck says; under `either` it stops so or completes, and which of the two is a free value;
nothing of memory or the registers depends on it. -/
def Obligations.MaskedOffRejectedAddress : Prop :=
  ∀ (k : BitVec 3) (z : Bool) (d : BitVec 5) (m : MemOp) (i : Instr) (kind : AccessKind) (stop : Stop) (s : State),
    (i = .e10m k z 15#4 d m ∧ kind = .read) ∨ (i = .e11m k 15#4 m d ∧ kind = .write) →
    k ≠ 0#3 → (s.kreg k).getLsbD 0 = false →
    probeCheck s (segOf m) (effAddr s tuple1Disp i.len m) kind = some stop →
    HasForm s i → Ready s i →
    (s.cfg.maskedOffFaults = .always → exec i s = stop.result) ∧
    (s.cfg.maskedOffFaults = .either → RipRoom s i →
      exec i s = stop.result ∨
      ∃ t, exec i s = .next t ∧ t.rip = s.rip + BitVec.ofNat 64 i.len ∧ t.mem = s.mem ∧ ControlKept s t ∧
        (∀ r, destOf i ≠ some r → t.vreg r = s.vreg r) ∧
        (kind = .read → t.low d = (if z = true then 0#64 else s.low d) ∧
          ∀ j, 64 ≤ j → j < s.cfg.maxVl.bits → (t.vreg d).getLsbD j = false))

/-- R102: a VEX or EVEX memory form whose stored `vvvv` is not `1111b` raises `#UD`, enabled or not; no value of the field
makes a register form raise it. -/
def Obligations.ReservedVvvvFaults : Prop :=
  (∀ (i : Instr) (v : BitVec 4) (s : State), reservedVvvv i = some v → v ≠ 15#4 → HasForm s i →
    zeroingNoMask i = false → exec i s = .fault .ud) ∧
  (∀ (i : Instr) (s : State), (∃ vex3 d s1 s2, i = .v10r vex3 d s1 s2 ∨ i = .v11r vex3 d s1 s2) ∨
      (∃ k z d s1 s2, i = .e10r k z d s1 s2 ∨ i = .e11r k z d s1 s2) →
    Ready s i → exec i s ≠ .fault .ud)

/-- R203, R204: a form whose class is absent or not enabled raises `#UD`; with the class enabled and no reserved field
wrong, `TS` raises `#NM`. -/
def Obligations.ClassChecks : Prop :=
  ∀ (i : Instr) (s : State), HasForm s i → zeroingNoMask i = false →
    (s.hasClass (classOf i) = false ∨ s.osClass (classOf i) = false → exec i s = .fault .ud) ∧
    (s.hasClass (classOf i) = true → s.osClass (classOf i) = true → s.ts = true →
      (∀ v, reservedVvvv i = some v → v = 15#4) → exec i s = .fault .nm)

/-- R57, R208: past the class checks an active memory form raises what MemCheck gives, and, where MemCheck admits the
access, `#AC` for a misaligned address under `AC_CHECK`. For a RIP-relative operand whose `rip + len` passes the top, that
these come before the refusal of the wrap is the model's (notes/assumptions/18.md). -/
def Obligations.MemoryFaultOrder : Prop :=
  ∀ (i : Instr) (m : MemOp) (kind : AccessKind) (scale ea : Addr) (s : State),
    memOperand i = some (m, kind, scale) → ea = effAddr s scale i.len m →
    HasForm s i → zeroingNoMask i = false → (∀ v, reservedVvvv i = some v → v = 15#4) → Ready s i →
    active s i = true →
    (∀ stop, memCheck s (segOf m) ea kind = some stop → exec i s = stop.result) ∧
    (memCheck s (segOf m) ea kind = none → s.acCheck = true → ea.toNat % 8 ≠ 0 → exec i s = .fault .ac)

/-- R201: a register form raises nothing but `#UD` and `#NM`, and a form that is Ready raises no `#NM`. -/
def Obligations.RegisterFormFaults : Prop :=
  ∀ (i : Instr) (f : Fault) (s : State), memOperand i = none → exec i s = .fault f →
    (f = .ud ∨ f = .nm) ∧ ¬ Ready s i

/-- R202: no value of any vector register or memory byte makes a form raise an exception it would not raise otherwise, or
keeps it from one, and no form sets an MXCSR flag. -/
def Obligations.NoValueRaisesException : Prop :=
  ∀ (i : Instr) (s : State) (vr : Vector VCell 32) (mem : Memory),
    (∀ f, exec i s = .fault f ↔ exec i { s with vr := vr, mem := mem } = .fault f) ∧
    (∀ t, exec i s = .next t → t.mxcsr = s.mxcsr)

/-- R34: what any form leaves unchanged. `freeCount`, the model's own counter, is not named. -/
def Obligations.FormFrame : Prop :=
  ∀ (i : Instr) (s t : State), exec i s = .next t →
    ControlKept s t ∧
    (∀ r, destOf i ≠ some r → t.vreg r = s.vreg r) ∧
    (∀ a : Nat, (∀ ea, storeTarget s i = some ea → a < ea.toNat ∨ ea.toNat + 8 ≤ a) →
      t.mem.read a = s.mem.read a)

/-- R135, R27: a form that completes leaves `rip` at the next instruction, without passing the top of the address space;
no form transfers control. -/
def Obligations.NextInstruction : Prop :=
  ∀ (i : Instr) (s t : State), exec i s = .next t →
    t.rip = s.rip + BitVec.ofNat 64 i.len ∧ s.rip.toNat + i.len < 2 ^ s.mode.addrWidth

/-- R27: where `rip + len` would pass the top of the address space no form completes, and an enabled register form is
refused for it. -/
def Obligations.RipWrapRefused : Prop :=
  ∀ (i : Instr) (s : State), ¬ RipRoom s i →
    (∀ t, exec i s ≠ .next t) ∧
    (memOperand i = none → HasForm s i → zeroingNoMask i = false → Ready s i → exec i s = .refused .ripWrap)

/-- R177, R99: zeroing without a writemask is refused before any check of the machine. That the decoded form is refused too,
and not its bytes alone, is the model's (notes/assumptions/15.md). -/
def Obligations.ZeroingWithoutMaskRefused : Prop :=
  ∀ (i : Instr) (s : State), HasForm s i → zeroingNoMask i = true → exec i s = .refused .zeroingWithoutMask

/-- R155: the VEX register form on one register keeps its low 128 bits and clears the rest; the legacy one changes nothing
but `rip`. -/
def Obligations.SelfMoves : Prop :=
  ∀ (wide : Bool) (n : BitVec 4) (i : Instr) (s t : State), exec i s = .next t →
    (i = .v10r wide n n n ∨ i = .v11r wide n n n →
      (∀ j, j < 128 → (t.vreg (xmm n)).getLsbD j = (s.vreg (xmm n)).getLsbD j) ∧
      (∀ j, 128 ≤ j → j < s.cfg.maxVl.bits → (t.vreg (xmm n)).getLsbD j = false)) ∧
    (i = .l10r wide n n ∨ i = .l11r wide n n → t = s.setRip (s.rip + BitVec.ofNat 64 i.len))

/-- R107: the register forms of opcodes `10` and `11` are one operation. -/
def Obligations.OpcodePairsAgree : Prop :=
  (∀ (rex : Bool) (d src : BitVec 4) (s : State), exec (.l10r rex d src) s = exec (.l11r rex d src) s) ∧
  (∀ (vex3 : Bool) (d s1 s2 : BitVec 4) (s : State), exec (.v10r vex3 d s1 s2) s = exec (.v11r vex3 d s1 s2) s) ∧
  (∀ (k : BitVec 3) (z : Bool) (d s1 s2 : BitVec 5) (s : State),
    exec (.e10r k z d s1 s2) s = exec (.e11r k z d s1 s2) s)

/-- R176: an unmasked EVEX form has the effect of the VEX form with the same operands, but for `rip`, which each advances
by its own length; for the memory forms, where the two address the same bytes. -/
def Obligations.UnmaskedEvexIsVex : Prop :=
  ∀ (e v : Instr) (s te tv : State),
    (∃ vex3 d s1 s2, (e = .e10r 0#3 false (xmm d) (xmm s1) (xmm s2) ∧ v = .v10r vex3 d s1 s2) ∨
        (e = .e11r 0#3 false (xmm d) (xmm s1) (xmm s2) ∧ v = .v11r vex3 d s1 s2)) ∨
      (∃ vex3 vst d m m', effAddr s tuple1Disp e.len m = effAddr s plainDisp v.len m' ∧
        ((e = .e10m 0#3 false vst (xmm d) m ∧ v = .v10m vex3 vst d m') ∨
          (e = .e11m 0#3 vst m (xmm d) ∧ v = .v11m vex3 vst m' d))) →
    exec e s = .next te → exec v s = .next tv →
    te = tv.setRip (s.rip + BitVec.ofNat 64 e.len)

/-- R25: a form without a writemask depends on no opmask register, and no form writes one. -/
def Obligations.UnmaskedFormsIgnoreOpmasks : Prop :=
  (∀ (i : Instr) (s : State) (ks : Vector (BitVec 64) 8), (∀ k z, maskOf i = some (k, z) → k = 0#3) →
    exec i { s with k := ks } = mapNext (fun t => { t with k := ks }) (exec i s)) ∧
  (∀ (i : Instr) (s t : State), exec i s = .next t → ∀ k, t.kreg k = s.kreg k)

/-- R52: what a form does depends on memory only through the eight bytes it loads: a register form on no byte, a load
on the eight bytes at its effective address. -/
def Obligations.OnlyEightBytesRead : Prop :=
  ∀ (i : Instr) (s : State) (mem : Memory),
    (∀ m scale, memOperand i = some (m, .read, scale) →
      ∀ j, j < 8 → mem.read ((effAddr s scale i.len m).toNat + j) = s.mem.read ((effAddr s scale i.len m).toNat + j)) →
    (∀ m scale, memOperand i ≠ some (m, .write, scale)) →
    exec i (s.setMem mem) = mapNext (fun t => t.setMem mem) (exec i s)

/-- R28, R130: no form reads or writes RFLAGS or MXCSR, so no rounding control, DAZ, FTZ or flag bears on what it does. -/
def Obligations.FlagsAndMxcsrUnused : Prop :=
  ∀ (i : Instr) (s : State) (fl : BitVec 64) (mx : BitVec 32),
    exec i { s with rflags := fl, mxcsr := mx } =
      mapNext (fun t => { t with rflags := fl, mxcsr := mx }) (exec i s)

/-- R93, R22 (what a 32-bit mode can name: notes/assumptions/9.md): in a 32-bit mode a register form that is nameable
there does what it does in 64-bit mode, while `rip` stays below 2^32. -/
def Obligations.RegisterFormsModeIndependent : Prop :=
  ∀ (i : Instr) (s : State), memOperand i = none → nameableIn32 i = true → s.mode = .mode64 →
    s.rip.toNat + i.len < 2 ^ 32 →
    exec i { s with mode := .mode32 } = mapNext (fun t => { t with mode := .mode32 }) (exec i s)

/-- R22, R93: a form no 32-bit mode can name is refused there (notes/assumptions/9.md). -/
def Obligations.UnnameableFormsRefusedIn32 : Prop :=
  ∀ (i : Instr) (s : State), s.mode = .mode32 → nameableIn32 i = false → exec i s = .refused .notNameableIn32

/-- R130, R132, R134, R60: a value stored and then loaded from the same place comes back bit for bit, whatever it is. -/
def Obligations.StoreThenLoadReturnsValue : Prop :=
  ∀ (st ld : Instr) (m m' : MemOp) (scale scale' ea : Addr) (d : BitVec 5) (v : Quad) (s t u : State),
    s.mem.wf = true → memOperand st = some (m, .write, scale) → memOperand ld = some (m', .read, scale') →
    active s st = true → active t ld = true →
    (∃ w src, (st = .l11m w m src ∧ v = s.low (xmm src)) ∨ (∃ k, st = .v11m w k m src ∧ v = s.low (xmm src))) ∨
      (∃ k vst src, st = .e11m k vst m src ∧ v = s.low src) →
    destOf ld = some d → ea = effAddr s scale st.len m → ea = effAddr t scale' ld.len m' →
    exec st s = .next t → exec ld t = .next u → u.low d = v ∧ u.high d = 0#64

/-- R51, R57: byte `j` of the quadword a load reads is the byte at `a + j`. -/
def Obligations.LoadsAreLittleEndian : Prop :=
  ∀ (mem : Memory) (a j : Nat), j < 8 → quadByte (mem.readQuad a) j = mem.read (a + j)

/-- R55: no access whose 8 bytes run past the last address is admitted, and in 64-bit mode a non-canonical address raises
`#GP(0)`, or `#SS(0)` when the segment is SS. That the last byte is tested too is the model's (notes/assumptions/6.md). -/
def Obligations.AddressSpaceChecks : Prop :=
  ∀ (s : State) (seg : Seg) (ea : Addr) (kind : AccessKind),
    (2 ^ s.mode.addrWidth ≤ ea.toNat + 7 → memCheck s seg ea kind ≠ none) ∧
    (s.mode = .mode64 → (∃ p q, 47 ≤ p ∧ p ≤ 63 ∧ 47 ≤ q ∧ q ≤ 63 ∧ ea.getLsbD p ≠ ea.getLsbD q) →
      memCheck s seg ea kind = some (.fault (match seg with | .ds => .gp | .ss => .ss)))

/-- R56: every function of the address and the kind is the answer of some platform map, so that holding MemCheck as a list of
rules (notes/assumptions/7.md) leaves none out. -/
def Obligations.EveryMemCheckIsAMap : Prop :=
  ∀ f : Addr → AccessKind → MemVerdict, ∃ rules : List MemRule, ∀ ea kind, lookupRule rules ea kind = f ea kind

/-- R63: the bytes a step runs lie in the program text, and no step changes a byte of the text or its extent. That the
state holds the extent is notes/assumptions/10.md. -/
def Obligations.ProgramTextImmutable : Prop :=
  ∀ (s t : State), step s = .next t →
    (∃ i rest, decode (fetchBytes s) = .ok (i, rest) ∧ s.text.base.toNat ≤ s.rip.toNat ∧
      s.rip.toNat + i.len ≤ s.text.base.toNat + s.text.len) ∧
    t.text = s.text ∧
    ∀ a : Nat, s.text.base.toNat ≤ a → a < s.text.base.toNat + s.text.len → t.mem.read a = s.mem.read a

/-- R63: a store that meets the program text does not complete; where MemCheck has no fault for its address, the address
is no device's and the access is within the address space, it is refused for that. -/
def Obligations.StoreIntoTextRefused : Prop :=
  ∀ (i : Instr) (m : MemOp) (scale ea : Addr) (s : State),
    memOperand i = some (m, .write, scale) → ea = effAddr s scale i.len m → active s i = true →
    (∃ a : Nat, ea.toNat ≤ a ∧ a < ea.toNat + 8 ∧ s.text.base.toNat ≤ a ∧ a < s.text.base.toNat + s.text.len) →
    (∀ t, exec i s ≠ .next t) ∧
    (HasForm s i → (∀ v, reservedVvvv i = some v → v = 15#4) → Ready s i →
      (s.mode = .mode64 → canonical ea = true ∧ canonical (ea + 7#64) = true) →
      lookupRule s.cfg.memMap ea .write = .admits → ea.toNat + 7 < 2 ^ s.mode.addrWidth →
      exec i s = .refused .storeIntoText)

/-- R90, R92, R100: the effective address of each addressing form in 64-bit mode; only an EVEX disp8 is scaled, by 8. That a
RIP-relative address is formed from a `rip + len` past the top too is the model's (notes/assumptions/18.md). -/
def Obligations.EffectiveAddresses : Prop :=
  ∀ (s : State) (len : Nat) (b : BitVec 4) (i : Index) (index : Option Index) (v8 : BitVec 8) (v : BitVec 32),
    s.mode = .mode64 → ∀ scale, scale = plainDisp ∨ scale = tuple1Disp →
    indexValue s none = 0#64 ∧ indexValue s (some i) = s.xreg i.reg <<< i.scale.toNat ∧
    effAddr s scale len (.base b .d0) = s.xreg b ∧
    effAddr s plainDisp len (.base b (.d8 v8)) = s.xreg b + v8.signExtend 64 ∧
    effAddr s tuple1Disp len (.base b (.d8 v8)) = s.xreg b + v8.signExtend 64 * 8#64 ∧
    effAddr s scale len (.base b (.d32 v)) = s.xreg b + v.signExtend 64 ∧
    effAddr s scale len (.ripRel v) = s.rip + BitVec.ofNat 64 len + v.signExtend 64 ∧
    effAddr s scale len (.sib b index .d0) = s.xreg b + indexValue s index ∧
    effAddr s plainDisp len (.sib b index (.d8 v8)) = s.xreg b + indexValue s index + v8.signExtend 64 ∧
    effAddr s tuple1Disp len (.sib b index (.d8 v8)) = s.xreg b + indexValue s index + v8.signExtend 64 * 8#64 ∧
    effAddr s scale len (.sib b index (.d32 v)) = s.xreg b + indexValue s index + v.signExtend 64 ∧
    effAddr s scale len (.sibNoBase index v) = indexValue s index + v.signExtend 64

/-- R136, R54: in a 32-bit mode an effective address is below 2^32 and is the 64-bit sum modulo 2^32
(notes/assumptions/9.md). -/
def Obligations.AddressesIn32BitModes : Prop :=
  ∀ (s : State) (scale : Addr) (len : Nat) (m : MemOp), s.mode = .mode32 →
    (effAddr s scale len m).toNat = (effAddr { s with mode := .mode64 } scale len m).toNat % 2 ^ 32

/-- Every form: the bytes the encoder writes, whatever bytes follow, decode to the form and leave those bytes. -/
def Obligations.DecodeEncodeRoundTrip : Prop :=
  ∀ (i : Instr) (rest : List Byte), i.wf = true → decode (encode i ++ rest) = .ok (i, rest)

/-- R104: whatever the decoder accepts is well-formed, and it takes exactly `len` bytes, at least 4 and at most 11. -/
def Obligations.DecodedFormsAreWellFormed : Prop :=
  ∀ (bs rest : List Byte) (i : Instr), decode bs = .ok (i, rest) →
    i.wf = true ∧ 4 ≤ i.len ∧ i.len ≤ 11 ∧ ∃ used, used.length = i.len ∧ bs = used ++ rest

/-- R103: VEX.L, VEX.W and, at 00b, 01b and 10b, EVEX.L'L change nothing. -/
def Obligations.IgnoredVexFields : Prop :=
  (∀ (r : BitVec 1) (v : BitVec 4) (l l' : BitVec 1) (pp : BitVec 2) (bs : List Byte),
    decode (0xC5#8 :: (r ++ v ++ l ++ pp) :: bs) = decode (0xC5#8 :: (r ++ v ++ l' ++ pp) :: bs)) ∧
  (∀ (p : Byte) (w w' l l' : BitVec 1) (v : BitVec 4) (pp : BitVec 2) (bs : List Byte),
    decode (0xC4#8 :: p :: (w ++ v ++ l ++ pp) :: bs) = decode (0xC4#8 :: p :: (w' ++ v ++ l' ++ pp) :: bs)) ∧
  (∀ (p0 p1 : Byte) (z b : BitVec 1) (ll ll' : BitVec 2) (low : BitVec 4) (bs : List Byte), ll ≠ 3#2 → ll' ≠ 3#2 →
    decode (0x62#8 :: p0 :: p1 :: (z ++ ll ++ b ++ low) :: bs) =
      decode (0x62#8 :: p0 :: p1 :: (z ++ ll' ++ b ++ low) :: bs))

/-- R88: REX.W has no effect. -/
def Obligations.RexWIgnored : Prop :=
  ∀ (w w' : BitVec 1) (rxb : BitVec 3) (bs : List Byte),
    decode (0xF2#8 :: (4#4 ++ w ++ rxb) :: bs) = decode (0xF2#8 :: (4#4 ++ w' ++ rxb) :: bs)

/-- R99: the EVEX settings whose effect the source does not state decode to nothing: `W = 0`, `z = 1` on the store or
without a mask, `b = 1`, `L'L = 11b`, `V'` stored 0 in a memory form, reserved bits. -/
def Obligations.EvexSettingsRefused : Prop :=
  ∀ (p0 p1 p2 op mb : Byte) (bs : List Byte),
    p1.getLsbD 7 = false ∨ p2.extractLsb' 5 2 = 3#2 ∨ p2.getLsbD 4 = true ∨ p0.extractLsb' 2 2 ≠ 0#2 ∨
      p1.getLsbD 2 = false ∨ (p2.getLsbD 7 = true ∧ p2.extractLsb' 0 3 = 0#3) ∨
      (p2.getLsbD 7 = true ∧ op = 0x11#8 ∧ mb.extractLsb' 6 2 ≠ 3#2) ∨
      (p2.getLsbD 3 = false ∧ mb.extractLsb' 6 2 ≠ 3#2) →
    ∃ e, decode (0x62#8 :: p0 :: p1 :: p2 :: op :: mb :: bs) = .error e

/-- R108, R87: no byte may stand before the class's first byte, nor between `F2` and `0F` but one REX byte. -/
def Obligations.OtherPrefixesRefused : Prop :=
  (∀ (p : Byte) (bs : List Byte), p ≠ 0xF2#8 → p ≠ 0xC5#8 → p ≠ 0xC4#8 → p ≠ 0x62#8 →
    ∃ e, decode (p :: bs) = .error e) ∧
  (∀ (p : Byte) (bs : List Byte), p ≠ 0x0F#8 → p.extractLsb' 4 4 ≠ 4#4 →
    ∃ e, decode (0xF2#8 :: p :: bs) = .error e) ∧
  (∀ (r p : Byte) (bs : List Byte), r.extractLsb' 4 4 = 4#4 → p ≠ 0x0F#8 →
    ∃ e, decode (0xF2#8 :: r :: p :: bs) = .error e)

/-- R83, R84, R87, R88, R94, R95, R97, R101: the register forms of both opcodes at every value of every field; `~` fields
are stored inverted. -/
def Obligations.RegisterFormsDecode : Prop :=
  ∀ (op11 : Bool) (reg rm : BitVec 3) (rest : List Byte),
    let tail : List Byte := (if op11 then 0x11#8 else 0x10#8) :: (3#2 ++ reg ++ rm) :: rest
    decode (0xF2#8 :: 0x0F#8 :: tail) =
      .ok (if op11 then .l11r false (0#1 ++ rm) (0#1 ++ reg) else .l10r false (0#1 ++ reg) (0#1 ++ rm), rest) ∧
    (∀ w r x b : BitVec 1, decode (0xF2#8 :: (4#4 ++ w ++ r ++ x ++ b) :: 0x0F#8 :: tail) =
      .ok (if op11 then .l11r true (b ++ rm) (r ++ reg) else .l10r true (r ++ reg) (b ++ rm), rest)) ∧
    (∀ (r l : BitVec 1) (v : BitVec 4), decode (0xC5#8 :: (~~~r ++ ~~~v ++ l ++ 3#2) :: tail) =
      .ok (if op11 then .v11r false (0#1 ++ rm) v (r ++ reg) else .v10r false (r ++ reg) v (0#1 ++ rm), rest)) ∧
    (∀ (r x b w l : BitVec 1) (v : BitVec 4),
      decode (0xC4#8 :: (~~~r ++ ~~~x ++ ~~~b ++ 1#5) :: (w ++ ~~~v ++ l ++ 3#2) :: tail) =
      .ok (if op11 then .v11r true (b ++ rm) v (r ++ reg) else .v10r true (r ++ reg) v (b ++ rm), rest)) ∧
    (∀ (r x b r' v' z : BitVec 1) (v : BitVec 4) (ll : BitVec 2) (k : BitVec 3), ll ≠ 3#2 → (k ≠ 0#3 ∨ z = 0#1) →
      decode (0x62#8 :: (~~~r ++ ~~~x ++ ~~~b ++ ~~~r' ++ 0#2 ++ 1#2) :: (1#1 ++ ~~~v ++ 1#1 ++ 3#2)
        :: (z ++ ll ++ 0#1 ++ ~~~v' ++ k) :: tail) =
      .ok (if op11 then .e11r k (z == 1#1) (x ++ b ++ rm) (v' ++ v) (r' ++ r ++ reg)
        else .e10r k (z == 1#1) (r' ++ r ++ reg) (v' ++ v) (x ++ b ++ rm), rest))

/-- R89, R90, R101: every row of R90's table, at every value of every field: which operand `mod`, `rm` and the SIB byte
name, and which bytes its displacement takes, lowest first. `x`, `b` are the class's extension bits after inversion. -/
def Obligations.AddressingFormsDecode : Prop :=
  ∀ (x b : Bool) (rm : BitVec 3) (v v0 v1 v2 v3 : Byte) (scale : BitVec 2) (index base : BitVec 3) (bs : List Byte),
    let disp32 : BitVec 32 := v3 ++ v2 ++ v1 ++ v0
    let bn : BitVec 4 := BitVec.ofBool b ++ base
    let xn : Option Index :=
      if BitVec.ofBool x ++ index = 4#4 then none else some ⟨BitVec.ofBool x ++ index, scale⟩
    (rm ≠ 4#3 → rm ≠ 5#3 → decodeMem x b 0#2 rm bs = .ok (.base (BitVec.ofBool b ++ rm) .d0, bs)) ∧
    decodeMem x b 0#2 5#3 (v0 :: v1 :: v2 :: v3 :: bs) = .ok (.ripRel disp32, bs) ∧
    (rm ≠ 4#3 → decodeMem x b 1#2 rm (v :: bs) = .ok (.base (BitVec.ofBool b ++ rm) (.d8 v), bs)) ∧
    (rm ≠ 4#3 → decodeMem x b 2#2 rm (v0 :: v1 :: v2 :: v3 :: bs) =
      .ok (.base (BitVec.ofBool b ++ rm) (.d32 disp32), bs)) ∧
    (base ≠ 5#3 → decodeMem x b 0#2 4#3 ((scale ++ index ++ base) :: bs) = .ok (.sib bn xn .d0, bs)) ∧
    decodeMem x b 0#2 4#3 ((scale ++ index ++ 5#3) :: v0 :: v1 :: v2 :: v3 :: bs) = .ok (.sibNoBase xn disp32, bs) ∧
    decodeMem x b 1#2 4#3 ((scale ++ index ++ base) :: v :: bs) = .ok (.sib bn xn (.d8 v), bs) ∧
    decodeMem x b 2#2 4#3 ((scale ++ index ++ base) :: v0 :: v1 :: v2 :: v3 :: bs) = .ok (.sib bn xn (.d32 disp32), bs)

/-- R87, R94, R95, R97: a few words of spec/95_test_vectors.md, one or two of each class and kind. -/
def Obligations.WordsOfTheSpecDecode : Prop :=
  decode [0xF2#8, 0x0F#8, 0x10#8, 0xCA#8] = .ok (.l10r false 1#4 2#4, []) ∧
  decode [0xF2#8, 0x43#8, 0x0F#8, 0x10#8, 0x04#8, 0xC8#8] =
    .ok (.l10m true 0#4 (.sib 8#4 (some ⟨9#4, 3#2⟩) .d0), []) ∧
  decode [0xC4#8, 0x41#8, 0x2B#8, 0x10#8, 0xCB#8] = .ok (.v10r true 9#4 10#4 11#4, []) ∧
  decode [0xC5#8, 0xFB#8, 0x11#8, 0x48#8, 0x02#8] = .ok (.v11m false 15#4 (.base 0#4 (.d8 2#8)) 1#4, []) ∧
  decode [0x62#8, 0xA1#8, 0xEF#8, 0x00#8, 0x10#8, 0xCB#8] = .ok (.e10r 0#3 false 17#5 18#5 19#5, []) ∧
  decode [0x62#8, 0x41#8, 0xFF#8, 0x08#8, 0x11#8, 0x7F#8, 0x01#8] =
    .ok (.e11m 0#3 15#4 (.base 15#4 (.d8 1#8)) 31#5, [])

/-- A step in 64-bit mode whose fetched bytes decode to a form within the program text (R63, notes/assumptions/10.md) is
that form's: nothing is added around it. -/
def Obligations.StepRunsDecodedForm : Prop :=
  ∀ (s : State) (i : Instr) (rest : List Byte), s.mode = .mode64 → decode (fetchBytes s) = .ok (i, rest) →
    s.text.base.toNat ≤ s.rip.toNat → s.rip.toNat + i.len ≤ s.text.base.toNat + s.text.len → step s = exec i s

/-- When memory holds at `rip`, in the program text, the bytes of a well-formed form, the step runs that form. -/
def Obligations.StepRunsEncodedBytes : Prop :=
  ∀ (s : State) (i : Instr), s.mode = .mode64 → i.wf = true → s.rip.toNat + i.len ≤ 2 ^ 64 →
    s.text.base.toNat ≤ s.rip.toNat → s.rip.toNat + i.len ≤ s.text.base.toNat + s.text.len →
    (∀ j (h : j < (encode i).length), s.mem.read (s.rip.toNat + j) = (encode i)[j]) → step s = exec i s

/-- R93, R106, R63: bytes that decode to nothing, an instruction not wholly in the program text (the model's reading of
R63, notes/assumptions/10.md), and any step in a 32-bit mode, are refused. -/
def Obligations.StepRefusals : Prop :=
  ∀ s : State, (s.mode = .mode32 → step s = .refused .byteLayerIn32) ∧
    (s.mode = .mode64 → ∀ e, decode (fetchBytes s) = .error e → step s = .refused (.encoding e)) ∧
    (s.mode = .mode64 → ∀ i rest, decode (fetchBytes s) = .ok (i, rest) →
      s.rip.toNat < s.text.base.toNat ∨ s.text.base.toNat + s.text.len < s.rip.toNat + i.len →
      step s = .refused .outsideText)

/-- From every well-formed state a step gives a well-formed state: memory stays canonical (R32), no bit of a vector or
opmask register appears above its width (R20, R24), registers 16 to 31 stay 0 without AVX512F (R22), the parameters stay
consistent (R21), `rip` stays within `ADDRW` (R27). The cells and their zero bits are notes/assumptions/14.md. -/
def Obligations.StepKeepsInvariant : Prop := ∀ s t : State, Inv s → step s = .next t → Inv t

/-- The reset state is well-formed. -/
def Obligations.ResetMeetsInvariant : Prop := Inv State.reset

/-- The reset state meets the launch premises of every class (R240, R242). The spec states no reset value (R35): each
value here is the model's choice (notes/assumptions/1.md to 4.md). -/
def Obligations.ResetIsALaunchState : Prop :=
  State.reset.mode = .mode64 ∧ (∀ i : Instr, Ready State.reset i ∧ HasForm State.reset i) ∧
  State.reset.acCheck = false ∧ (∀ a : Nat, State.reset.mem.read a = 0#8) ∧
  (∀ r, State.reset.vreg r = 0#512) ∧ (∀ r, State.reset.kreg r = 0#64) ∧ (∀ r, State.reset.xreg r = 0#64)
end

