-- ==== Sys2Proof/Laws/Memory.lean ====
section
/-! SUPPORT. Laws/Memory.lean: reads after writes, the bytes of a quadword, and that every memory operation keeps the
canonical form. -/
namespace Sys2Proof.Machine

/-- A canonical memory is canonical from any lower address. -/
theorem Memory.wfFrom_mono {m : Memory} {lo lo' : Nat} (h : lo' ≤ lo) (hw : Memory.wfFrom lo m = true) :
    Memory.wfFrom lo' m = true := by
  cases m with
  | nil => rfl
  | cons c rest =>
    simp only [Memory.wfFrom, Bool.and_eq_true, decide_eq_true_eq] at hw ⊢
    exact ⟨⟨⟨by omega, hw.1.1.2⟩, hw.1.2⟩, hw.2⟩

/-- Below the first listed address every byte reads as unlisted. -/
theorem Memory.read_below {m : Memory} {lo a : Nat} (hw : Memory.wfFrom lo m = true) (h : a < lo) :
    m.read a = Memory.unlisted := by
  induction m generalizing lo with
  | nil => rfl
  | cons c rest ih =>
    simp only [Memory.wfFrom, Bool.and_eq_true, decide_eq_true_eq] at hw
    have hne : c.1 ≠ a := by omega
    simp only [Memory.read, hne, if_false]
    exact ih hw.2 (by omega)

/-- A write leaves every other address as it was. -/
theorem Memory.read_write_ne (m : Memory) {a c : Nat} (v : Byte) (h : c ≠ a) : (m.write a v).read c = m.read c := by
  induction m with
  | nil => unfold Memory.write; split <;> simp [Memory.read, Ne.symm h]
  | cons e rest ih =>
    obtain ⟨b, w⟩ := e
    unfold Memory.write
    split
    · split
      · rfl
      · simp [Memory.read, Ne.symm h]
    · split
      · rename_i hb
        subst hb
        split <;> simp [Memory.read, Ne.symm h]
      · simp only [Memory.read, ih]

/-- A byte written is the byte read. -/
theorem Memory.read_write_same_from {m : Memory} {lo a : Nat} (v : Byte) (hw : Memory.wfFrom lo m = true) :
    (m.write a v).read a = v := by
  induction m generalizing lo with
  | nil => unfold Memory.write; split <;> simp_all [Memory.read]
  | cons e rest ih =>
    obtain ⟨b, w⟩ := e
    simp only [Memory.wfFrom, Bool.and_eq_true, decide_eq_true_eq] at hw
    unfold Memory.write
    split
    · have hba : b ≠ a := by omega
      split
      · rename_i hv
        simp [Memory.read, hba, hv, Memory.read_below hw.2 (show a < b + 1 by omega)]
      · simp [Memory.read]
    · split
      · rename_i hb
        subst hb
        split
        · rename_i hv
          rw [hv, Memory.read_below hw.2 (Nat.lt_succ_self a)]
        · simp [Memory.read]
      · have hba : b ≠ a := by omega
        simp only [Memory.read, hba, if_false]
        exact ih hw.2

/-- A byte written to a canonical memory is the byte read. -/
theorem Memory.read_write_same {m : Memory} {a : Nat} (v : Byte) (hw : m.wf = true) : (m.write a v).read a = v :=
  Memory.read_write_same_from v hw

theorem Memory.write_wfFrom {m : Memory} {lo a : Nat} (v : Byte) (hw : Memory.wfFrom lo m = true) (hlo : lo ≤ a)
    (ha : a < 2 ^ 64) : Memory.wfFrom lo (m.write a v) = true := by
  induction m generalizing lo with
  | nil =>
    unfold Memory.write
    split
    · rfl
    · rename_i hv
      simp only [Memory.wfFrom, Bool.and_eq_true, decide_eq_true_eq, bne_iff_ne]
      exact ⟨⟨⟨hlo, ha⟩, hv⟩, trivial⟩
  | cons e rest ih =>
    obtain ⟨b, w⟩ := e
    have hw' := hw
    simp only [Memory.wfFrom, Bool.and_eq_true, decide_eq_true_eq] at hw
    unfold Memory.write
    split
    · split
      · exact hw'
      · rename_i hv
        simp only [Memory.wfFrom, Bool.and_eq_true, decide_eq_true_eq, bne_iff_ne]
        exact ⟨⟨⟨hlo, ha⟩, hv⟩, ⟨⟨by omega, hw.1.1.2⟩, bne_iff_ne.mp hw.1.2⟩, hw.2⟩
    · split
      · rename_i hb
        subst hb
        split
        · exact Memory.wfFrom_mono (by omega) hw.2
        · rename_i hv
          simp only [Memory.wfFrom, Bool.and_eq_true, decide_eq_true_eq, bne_iff_ne]
          exact ⟨⟨⟨hlo, ha⟩, hv⟩, hw.2⟩
      · simp only [Memory.wfFrom, Bool.and_eq_true, decide_eq_true_eq]
        exact ⟨hw.1, ih hw.2 (by omega)⟩

/-- A write keeps the canonical form. -/
theorem Memory.write_wf {m : Memory} {a : Nat} (v : Byte) (hw : m.wf = true) (ha : a < 2 ^ 64) :
    (m.write a v).wf = true := Memory.write_wfFrom v hw (Nat.zero_le _) ha

/-- A run of bytes written keeps the canonical form. -/
theorem Memory.writeBytes_wf {m : Memory} {a : Nat} (bs : List Byte) (hw : m.wf = true) (ha : a + bs.length ≤ 2 ^ 64) :
    (m.writeBytes a bs).wf = true := by
  induction bs generalizing m a with
  | nil => exact hw
  | cons b bs ih =>
    simp only [List.length_cons] at ha
    exact ih (Memory.write_wf b hw (by omega)) (by omega)

/-- A run of bytes written leaves every address outside it as it was. -/
theorem Memory.read_writeBytes_outside {m : Memory} {a c : Nat} (bs : List Byte) (h : c < a ∨ a + bs.length ≤ c) :
    (m.writeBytes a bs).read c = m.read c := by
  induction bs generalizing m a with
  | nil => rfl
  | cons b bs ih =>
    simp only [List.length_cons] at h
    simp only [Memory.writeBytes]
    rw [ih (by omega), Memory.read_write_ne _ _ (by omega)]

/-- Byte `j` of a run of bytes written is read back. -/
theorem Memory.read_writeBytes_inside {m : Memory} {a : Nat} (bs : List Byte) (hw : m.wf = true)
    (ha : a + bs.length ≤ 2 ^ 64) (j : Nat) (hj : j < bs.length) : (m.writeBytes a bs).read (a + j) = bs[j] := by
  induction bs generalizing m a j with
  | nil => simp at hj
  | cons b bs ih =>
    simp only [List.length_cons] at ha hj
    cases j with
    | zero =>
      simp only [Memory.writeBytes, Nat.add_zero, List.getElem_cons_zero]
      rw [Memory.read_writeBytes_outside _ (by omega), Memory.read_write_same _ hw]
    | succ j =>
      have e : a + (j + 1) = a + 1 + j := by omega
      simp only [Memory.writeBytes, List.getElem_cons_succ, e]
      exact ih (Memory.write_wf b hw (by omega)) (by omega) j (by omega)

@[simp] theorem quadBytes_length (v : Quad) : (quadBytes v).length = 8 := rfl

/-- A quadword written keeps the canonical form. -/
theorem Memory.writeQuad_wf {m : Memory} {a : Nat} (v : Quad) (hw : m.wf = true) (ha : a + 8 ≤ 2 ^ 64) :
    (m.writeQuad a v).wf = true := Memory.writeBytes_wf _ hw (by simpa using ha)

/-- A quadword written leaves every byte outside its eight as it was (R34, R52). -/
theorem Memory.read_writeQuad_outside {m : Memory} {a c : Nat} (v : Quad) (h : c < a ∨ a + 8 ≤ c) :
    (m.writeQuad a v).read c = m.read c := Memory.read_writeBytes_outside _ (by simpa using h)

/-- Byte `j` of a quadword written is its bits `8j+7:8j` (R51, R57). -/
theorem Memory.read_writeQuad_inside {m : Memory} {a : Nat} (v : Quad) (hw : m.wf = true) (ha : a + 8 ≤ 2 ^ 64)
    (j : Nat) (hj : j < 8) : (m.writeQuad a v).read (a + j) = quadByte v j := by
  rw [Memory.writeQuad, Memory.read_writeBytes_inside _ hw (by simpa using ha) j (by simpa using hj)]
  match j, hj with
  | 0, _ | 1, _ | 2, _ | 3, _ | 4, _ | 5, _ | 6, _ | 7, _ => rfl

/-- The eight bytes of a quadword, put together, are the quadword. -/
theorem quadBytes_concat (v : Quad) :
    quadByte v 7 ++ quadByte v 6 ++ quadByte v 5 ++ quadByte v 4 ++ quadByte v 3 ++ quadByte v 2 ++ quadByte v 1
      ++ quadByte v 0 = v := by
  apply BitVec.eq_of_getLsbD_eq
  intro j hj
  simp only [quadByte, BitVec.getLsbD_append, BitVec.getLsbD_extractLsb']
  interval_cases j <;> rfl

/-- A quadword written is the quadword read (R51, R57). -/
theorem Memory.readQuad_writeQuad {m : Memory} {a : Nat} (v : Quad) (hw : m.wf = true) (ha : a + 8 ≤ 2 ^ 64) :
    (m.writeQuad a v).readQuad a = v := by
  have h := fun j hj => Memory.read_writeQuad_inside (m := m) (a := a) v hw ha j hj
  simp only [Memory.readQuad, h 7 (by omega), h 6 (by omega), h 5 (by omega), h 4 (by omega), h 3 (by omega),
    h 2 (by omega), h 1 (by omega)]
  have h0 := h 0 (by omega)
  rw [Nat.add_zero] at h0
  rw [h0]
  exact quadBytes_concat v

/-- A quadword read depends on its eight bytes alone. -/
theorem Memory.readQuad_congr {m m' : Memory} {a : Nat} (h : ∀ j, j < 8 → m.read (a + j) = m'.read (a + j)) :
    m.readQuad a = m'.readQuad a := by
  have h0 := h 0 (by omega)
  rw [Nat.add_zero] at h0
  simp only [Memory.readQuad, h0, h 7 (by omega), h 6 (by omega), h 5 (by omega), h 4 (by omega), h 3 (by omega),
    h 2 (by omega), h 1 (by omega)]

end Sys2Proof.Machine
end

