-- ==== Sys2Proof/Laws/State.lean ====
section
/-! SUPPORT. Laws/State.lean: one lemma per field per update of the state, and reads of a vector register after a write. -/
namespace Sys2Proof.Machine

variable {n : Nat} (s : State) (i : BitVec 5) (lo : Nat) (w : BitVec n)

@[simp] theorem setVslice_cfg : (s.setVslice i lo w).cfg = s.cfg := rfl
@[simp] theorem setVslice_mode : (s.setVslice i lo w).mode = s.mode := rfl
@[simp] theorem setVslice_osSse : (s.setVslice i lo w).osSse = s.osSse := rfl
@[simp] theorem setVslice_osAvx : (s.setVslice i lo w).osAvx = s.osAvx := rfl
@[simp] theorem setVslice_osAvx512 : (s.setVslice i lo w).osAvx512 = s.osAvx512 := rfl
@[simp] theorem setVslice_ts : (s.setVslice i lo w).ts = s.ts := rfl
@[simp] theorem setVslice_acCheck : (s.setVslice i lo w).acCheck = s.acCheck := rfl
@[simp] theorem setVslice_k : (s.setVslice i lo w).k = s.k := rfl
@[simp] theorem setVslice_x : (s.setVslice i lo w).x = s.x := rfl
@[simp] theorem setVslice_rip : (s.setVslice i lo w).rip = s.rip := rfl
@[simp] theorem setVslice_rflags : (s.setVslice i lo w).rflags = s.rflags := rfl
@[simp] theorem setVslice_mxcsr : (s.setVslice i lo w).mxcsr = s.mxcsr := rfl
@[simp] theorem setVslice_x87 : (s.setVslice i lo w).x87 = s.x87 := rfl
@[simp] theorem setVslice_text : (s.setVslice i lo w).text = s.text := rfl
@[simp] theorem setVslice_mem : (s.setVslice i lo w).mem = s.mem := rfl
@[simp] theorem setVslice_freeCount : (s.setVslice i lo w).freeCount = s.freeCount := rfl

@[simp] theorem clearFrom_cfg : (s.clearFrom i lo).cfg = s.cfg := rfl
@[simp] theorem clearFrom_mode : (s.clearFrom i lo).mode = s.mode := rfl
@[simp] theorem clearFrom_osSse : (s.clearFrom i lo).osSse = s.osSse := rfl
@[simp] theorem clearFrom_osAvx : (s.clearFrom i lo).osAvx = s.osAvx := rfl
@[simp] theorem clearFrom_osAvx512 : (s.clearFrom i lo).osAvx512 = s.osAvx512 := rfl
@[simp] theorem clearFrom_ts : (s.clearFrom i lo).ts = s.ts := rfl
@[simp] theorem clearFrom_acCheck : (s.clearFrom i lo).acCheck = s.acCheck := rfl
@[simp] theorem clearFrom_k : (s.clearFrom i lo).k = s.k := rfl
@[simp] theorem clearFrom_x : (s.clearFrom i lo).x = s.x := rfl
@[simp] theorem clearFrom_rip : (s.clearFrom i lo).rip = s.rip := rfl
@[simp] theorem clearFrom_rflags : (s.clearFrom i lo).rflags = s.rflags := rfl
@[simp] theorem clearFrom_mxcsr : (s.clearFrom i lo).mxcsr = s.mxcsr := rfl
@[simp] theorem clearFrom_x87 : (s.clearFrom i lo).x87 = s.x87 := rfl
@[simp] theorem clearFrom_text : (s.clearFrom i lo).text = s.text := rfl
@[simp] theorem clearFrom_mem : (s.clearFrom i lo).mem = s.mem := rfl
@[simp] theorem clearFrom_freeCount : (s.clearFrom i lo).freeCount = s.freeCount := rfl

@[simp] theorem setVslice_kreg (j : BitVec 3) : (s.setVslice i lo w).kreg j = s.kreg j := rfl
@[simp] theorem setVslice_xreg (j : BitVec 4) : (s.setVslice i lo w).xreg j = s.xreg j := rfl
@[simp] theorem clearFrom_kreg (j : BitVec 3) : (s.clearFrom i lo).kreg j = s.kreg j := rfl
@[simp] theorem clearFrom_xreg (j : BitVec 4) : (s.clearFrom i lo).xreg j = s.xreg j := rfl

section Named

variable (r : Addr) (m : Memory)

@[simp] theorem setRip_cfg : (s.setRip r).cfg = s.cfg := rfl
@[simp] theorem setRip_mode : (s.setRip r).mode = s.mode := rfl
@[simp] theorem setRip_osSse : (s.setRip r).osSse = s.osSse := rfl
@[simp] theorem setRip_osAvx : (s.setRip r).osAvx = s.osAvx := rfl
@[simp] theorem setRip_osAvx512 : (s.setRip r).osAvx512 = s.osAvx512 := rfl
@[simp] theorem setRip_ts : (s.setRip r).ts = s.ts := rfl
@[simp] theorem setRip_acCheck : (s.setRip r).acCheck = s.acCheck := rfl
@[simp] theorem setRip_vr : (s.setRip r).vr = s.vr := rfl
@[simp] theorem setRip_k : (s.setRip r).k = s.k := rfl
@[simp] theorem setRip_x : (s.setRip r).x = s.x := rfl
@[simp] theorem setRip_rip : (s.setRip r).rip = r := rfl
@[simp] theorem setRip_rflags : (s.setRip r).rflags = s.rflags := rfl
@[simp] theorem setRip_mxcsr : (s.setRip r).mxcsr = s.mxcsr := rfl
@[simp] theorem setRip_x87 : (s.setRip r).x87 = s.x87 := rfl
@[simp] theorem setRip_text : (s.setRip r).text = s.text := rfl
@[simp] theorem setRip_mem : (s.setRip r).mem = s.mem := rfl
@[simp] theorem setRip_freeCount : (s.setRip r).freeCount = s.freeCount := rfl
@[simp] theorem setRip_vreg (j : BitVec 5) : (s.setRip r).vreg j = s.vreg j := rfl
@[simp] theorem setRip_kreg (j : BitVec 3) : (s.setRip r).kreg j = s.kreg j := rfl
@[simp] theorem setRip_xreg (j : BitVec 4) : (s.setRip r).xreg j = s.xreg j := rfl
@[simp] theorem setRip_low (j : BitVec 5) : (s.setRip r).low j = s.low j := rfl
@[simp] theorem setRip_high (j : BitVec 5) : (s.setRip r).high j = s.high j := rfl

@[simp] theorem setMem_cfg : (s.setMem m).cfg = s.cfg := rfl
@[simp] theorem setMem_mode : (s.setMem m).mode = s.mode := rfl
@[simp] theorem setMem_osSse : (s.setMem m).osSse = s.osSse := rfl
@[simp] theorem setMem_osAvx : (s.setMem m).osAvx = s.osAvx := rfl
@[simp] theorem setMem_osAvx512 : (s.setMem m).osAvx512 = s.osAvx512 := rfl
@[simp] theorem setMem_ts : (s.setMem m).ts = s.ts := rfl
@[simp] theorem setMem_acCheck : (s.setMem m).acCheck = s.acCheck := rfl
@[simp] theorem setMem_vr : (s.setMem m).vr = s.vr := rfl
@[simp] theorem setMem_k : (s.setMem m).k = s.k := rfl
@[simp] theorem setMem_x : (s.setMem m).x = s.x := rfl
@[simp] theorem setMem_rip : (s.setMem m).rip = s.rip := rfl
@[simp] theorem setMem_rflags : (s.setMem m).rflags = s.rflags := rfl
@[simp] theorem setMem_mxcsr : (s.setMem m).mxcsr = s.mxcsr := rfl
@[simp] theorem setMem_x87 : (s.setMem m).x87 = s.x87 := rfl
@[simp] theorem setMem_text : (s.setMem m).text = s.text := rfl
@[simp] theorem setMem_mem : (s.setMem m).mem = m := rfl
@[simp] theorem setMem_freeCount : (s.setMem m).freeCount = s.freeCount := rfl
@[simp] theorem setMem_vreg (j : BitVec 5) : (s.setMem m).vreg j = s.vreg j := rfl
@[simp] theorem setMem_kreg (j : BitVec 3) : (s.setMem m).kreg j = s.kreg j := rfl
@[simp] theorem setMem_xreg (j : BitVec 4) : (s.setMem m).xreg j = s.xreg j := rfl
@[simp] theorem setMem_low (j : BitVec 5) : (s.setMem m).low j = s.low j := rfl
@[simp] theorem setMem_high (j : BitVec 5) : (s.setMem m).high j = s.high j := rfl

@[simp] theorem countChoice_cfg : (s.countChoice).cfg = s.cfg := rfl
@[simp] theorem countChoice_mode : (s.countChoice).mode = s.mode := rfl
@[simp] theorem countChoice_osSse : (s.countChoice).osSse = s.osSse := rfl
@[simp] theorem countChoice_osAvx : (s.countChoice).osAvx = s.osAvx := rfl
@[simp] theorem countChoice_osAvx512 : (s.countChoice).osAvx512 = s.osAvx512 := rfl
@[simp] theorem countChoice_ts : (s.countChoice).ts = s.ts := rfl
@[simp] theorem countChoice_acCheck : (s.countChoice).acCheck = s.acCheck := rfl
@[simp] theorem countChoice_vr : (s.countChoice).vr = s.vr := rfl
@[simp] theorem countChoice_k : (s.countChoice).k = s.k := rfl
@[simp] theorem countChoice_x : (s.countChoice).x = s.x := rfl
@[simp] theorem countChoice_rip : (s.countChoice).rip = s.rip := rfl
@[simp] theorem countChoice_rflags : (s.countChoice).rflags = s.rflags := rfl
@[simp] theorem countChoice_mxcsr : (s.countChoice).mxcsr = s.mxcsr := rfl
@[simp] theorem countChoice_x87 : (s.countChoice).x87 = s.x87 := rfl
@[simp] theorem countChoice_text : (s.countChoice).text = s.text := rfl
@[simp] theorem countChoice_mem : (s.countChoice).mem = s.mem := rfl
@[simp] theorem countChoice_freeCount : (s.countChoice).freeCount = s.freeCount + 1 := rfl
@[simp] theorem countChoice_vreg (j : BitVec 5) : (s.countChoice).vreg j = s.vreg j := rfl
@[simp] theorem countChoice_kreg (j : BitVec 3) : (s.countChoice).kreg j = s.kreg j := rfl
@[simp] theorem countChoice_xreg (j : BitVec 4) : (s.countChoice).xreg j = s.xreg j := rfl
@[simp] theorem countChoice_low (j : BitVec 5) : (s.countChoice).low j = s.low j := rfl
@[simp] theorem countChoice_high (j : BitVec 5) : (s.countChoice).high j = s.high j := rfl

end Named

/-- The register written holds the slice written. -/
@[simp] theorem vreg_setVslice_same : (s.setVslice i lo w).vreg i = setSlice (s.vreg i) lo w := by
  simp [State.setVslice, State.vreg]

/-- Every other register keeps its value. -/
theorem vreg_setVslice_ne {j : BitVec 5} (h : j ≠ i) : (s.setVslice i lo w).vreg j = s.vreg j := by
  have h' : i.toNat ≠ j.toNat := fun e => h (BitVec.eq_of_toNat_eq e.symm)
  simp [State.setVslice, State.vreg, h']

@[simp] theorem vreg_clearFrom_same :
    (s.clearFrom i lo).vreg i = setSlice (s.vreg i) lo (0#(s.cfg.maxVl.bits - lo)) := by
  simp [State.clearFrom]

theorem vreg_clearFrom_ne {j : BitVec 5} (h : j ≠ i) : (s.clearFrom i lo).vreg j = s.vreg j := by
  simp [State.clearFrom, vreg_setVslice_ne _ _ _ _ h]

/-- `moveLow` writes the vector file alone. -/
theorem moveLow_eq (d src : BitVec 5) :
    moveLow s d src = { s with vr := (moveLow s d src).vr } := rfl
@[simp] theorem moveLow_cfg (d src : BitVec 5) : (moveLow s d src).cfg = s.cfg := rfl
@[simp] theorem moveLow_mode (d src : BitVec 5) : (moveLow s d src).mode = s.mode := rfl
@[simp] theorem moveLow_osSse (d src : BitVec 5) : (moveLow s d src).osSse = s.osSse := rfl
@[simp] theorem moveLow_osAvx (d src : BitVec 5) : (moveLow s d src).osAvx = s.osAvx := rfl
@[simp] theorem moveLow_osAvx512 (d src : BitVec 5) : (moveLow s d src).osAvx512 = s.osAvx512 := rfl
@[simp] theorem moveLow_ts (d src : BitVec 5) : (moveLow s d src).ts = s.ts := rfl
@[simp] theorem moveLow_acCheck (d src : BitVec 5) : (moveLow s d src).acCheck = s.acCheck := rfl
@[simp] theorem moveLow_k (d src : BitVec 5) : (moveLow s d src).k = s.k := rfl
@[simp] theorem moveLow_x (d src : BitVec 5) : (moveLow s d src).x = s.x := rfl
@[simp] theorem moveLow_rip (d src : BitVec 5) : (moveLow s d src).rip = s.rip := rfl
@[simp] theorem moveLow_rflags (d src : BitVec 5) : (moveLow s d src).rflags = s.rflags := rfl
@[simp] theorem moveLow_mxcsr (d src : BitVec 5) : (moveLow s d src).mxcsr = s.mxcsr := rfl
@[simp] theorem moveLow_x87 (d src : BitVec 5) : (moveLow s d src).x87 = s.x87 := rfl
@[simp] theorem moveLow_text (d src : BitVec 5) : (moveLow s d src).text = s.text := rfl
@[simp] theorem moveLow_mem (d src : BitVec 5) : (moveLow s d src).mem = s.mem := rfl
@[simp] theorem moveLow_freeCount (d src : BitVec 5) : (moveLow s d src).freeCount = s.freeCount := rfl

/-- `loadLegacy` writes the vector file alone. -/
theorem loadLegacy_eq (d : BitVec 5) (t : Quad) :
    loadLegacy s d t = { s with vr := (loadLegacy s d t).vr } := rfl
@[simp] theorem loadLegacy_cfg (d : BitVec 5) (t : Quad) : (loadLegacy s d t).cfg = s.cfg := rfl
@[simp] theorem loadLegacy_mode (d : BitVec 5) (t : Quad) : (loadLegacy s d t).mode = s.mode := rfl
@[simp] theorem loadLegacy_osSse (d : BitVec 5) (t : Quad) : (loadLegacy s d t).osSse = s.osSse := rfl
@[simp] theorem loadLegacy_osAvx (d : BitVec 5) (t : Quad) : (loadLegacy s d t).osAvx = s.osAvx := rfl
@[simp] theorem loadLegacy_osAvx512 (d : BitVec 5) (t : Quad) : (loadLegacy s d t).osAvx512 = s.osAvx512 := rfl
@[simp] theorem loadLegacy_ts (d : BitVec 5) (t : Quad) : (loadLegacy s d t).ts = s.ts := rfl
@[simp] theorem loadLegacy_acCheck (d : BitVec 5) (t : Quad) : (loadLegacy s d t).acCheck = s.acCheck := rfl
@[simp] theorem loadLegacy_k (d : BitVec 5) (t : Quad) : (loadLegacy s d t).k = s.k := rfl
@[simp] theorem loadLegacy_x (d : BitVec 5) (t : Quad) : (loadLegacy s d t).x = s.x := rfl
@[simp] theorem loadLegacy_rip (d : BitVec 5) (t : Quad) : (loadLegacy s d t).rip = s.rip := rfl
@[simp] theorem loadLegacy_rflags (d : BitVec 5) (t : Quad) : (loadLegacy s d t).rflags = s.rflags := rfl
@[simp] theorem loadLegacy_mxcsr (d : BitVec 5) (t : Quad) : (loadLegacy s d t).mxcsr = s.mxcsr := rfl
@[simp] theorem loadLegacy_x87 (d : BitVec 5) (t : Quad) : (loadLegacy s d t).x87 = s.x87 := rfl
@[simp] theorem loadLegacy_text (d : BitVec 5) (t : Quad) : (loadLegacy s d t).text = s.text := rfl
@[simp] theorem loadLegacy_mem (d : BitVec 5) (t : Quad) : (loadLegacy s d t).mem = s.mem := rfl
@[simp] theorem loadLegacy_freeCount (d : BitVec 5) (t : Quad) : (loadLegacy s d t).freeCount = s.freeCount := rfl

/-- `mergeInto` writes the vector file alone. -/
theorem mergeInto_eq (d : BitVec 5) (a b : Quad) :
    mergeInto s d a b = { s with vr := (mergeInto s d a b).vr } := rfl
@[simp] theorem mergeInto_cfg (d : BitVec 5) (a b : Quad) : (mergeInto s d a b).cfg = s.cfg := rfl
@[simp] theorem mergeInto_mode (d : BitVec 5) (a b : Quad) : (mergeInto s d a b).mode = s.mode := rfl
@[simp] theorem mergeInto_osSse (d : BitVec 5) (a b : Quad) : (mergeInto s d a b).osSse = s.osSse := rfl
@[simp] theorem mergeInto_osAvx (d : BitVec 5) (a b : Quad) : (mergeInto s d a b).osAvx = s.osAvx := rfl
@[simp] theorem mergeInto_osAvx512 (d : BitVec 5) (a b : Quad) : (mergeInto s d a b).osAvx512 = s.osAvx512 := rfl
@[simp] theorem mergeInto_ts (d : BitVec 5) (a b : Quad) : (mergeInto s d a b).ts = s.ts := rfl
@[simp] theorem mergeInto_acCheck (d : BitVec 5) (a b : Quad) : (mergeInto s d a b).acCheck = s.acCheck := rfl
@[simp] theorem mergeInto_k (d : BitVec 5) (a b : Quad) : (mergeInto s d a b).k = s.k := rfl
@[simp] theorem mergeInto_x (d : BitVec 5) (a b : Quad) : (mergeInto s d a b).x = s.x := rfl
@[simp] theorem mergeInto_rip (d : BitVec 5) (a b : Quad) : (mergeInto s d a b).rip = s.rip := rfl
@[simp] theorem mergeInto_rflags (d : BitVec 5) (a b : Quad) : (mergeInto s d a b).rflags = s.rflags := rfl
@[simp] theorem mergeInto_mxcsr (d : BitVec 5) (a b : Quad) : (mergeInto s d a b).mxcsr = s.mxcsr := rfl
@[simp] theorem mergeInto_x87 (d : BitVec 5) (a b : Quad) : (mergeInto s d a b).x87 = s.x87 := rfl
@[simp] theorem mergeInto_text (d : BitVec 5) (a b : Quad) : (mergeInto s d a b).text = s.text := rfl
@[simp] theorem mergeInto_mem (d : BitVec 5) (a b : Quad) : (mergeInto s d a b).mem = s.mem := rfl
@[simp] theorem mergeInto_freeCount (d : BitVec 5) (a b : Quad) : (mergeInto s d a b).freeCount = s.freeCount := rfl

/-- `loadClearing` writes the vector file alone. -/
theorem loadClearing_eq (d : BitVec 5) (t : Quad) :
    loadClearing s d t = { s with vr := (loadClearing s d t).vr } := rfl
@[simp] theorem loadClearing_cfg (d : BitVec 5) (t : Quad) : (loadClearing s d t).cfg = s.cfg := rfl
@[simp] theorem loadClearing_mode (d : BitVec 5) (t : Quad) : (loadClearing s d t).mode = s.mode := rfl
@[simp] theorem loadClearing_osSse (d : BitVec 5) (t : Quad) : (loadClearing s d t).osSse = s.osSse := rfl
@[simp] theorem loadClearing_osAvx (d : BitVec 5) (t : Quad) : (loadClearing s d t).osAvx = s.osAvx := rfl
@[simp] theorem loadClearing_osAvx512 (d : BitVec 5) (t : Quad) : (loadClearing s d t).osAvx512 = s.osAvx512 := rfl
@[simp] theorem loadClearing_ts (d : BitVec 5) (t : Quad) : (loadClearing s d t).ts = s.ts := rfl
@[simp] theorem loadClearing_acCheck (d : BitVec 5) (t : Quad) : (loadClearing s d t).acCheck = s.acCheck := rfl
@[simp] theorem loadClearing_k (d : BitVec 5) (t : Quad) : (loadClearing s d t).k = s.k := rfl
@[simp] theorem loadClearing_x (d : BitVec 5) (t : Quad) : (loadClearing s d t).x = s.x := rfl
@[simp] theorem loadClearing_rip (d : BitVec 5) (t : Quad) : (loadClearing s d t).rip = s.rip := rfl
@[simp] theorem loadClearing_rflags (d : BitVec 5) (t : Quad) : (loadClearing s d t).rflags = s.rflags := rfl
@[simp] theorem loadClearing_mxcsr (d : BitVec 5) (t : Quad) : (loadClearing s d t).mxcsr = s.mxcsr := rfl
@[simp] theorem loadClearing_x87 (d : BitVec 5) (t : Quad) : (loadClearing s d t).x87 = s.x87 := rfl
@[simp] theorem loadClearing_text (d : BitVec 5) (t : Quad) : (loadClearing s d t).text = s.text := rfl
@[simp] theorem loadClearing_mem (d : BitVec 5) (t : Quad) : (loadClearing s d t).mem = s.mem := rfl
@[simp] theorem loadClearing_freeCount (d : BitVec 5) (t : Quad) : (loadClearing s d t).freeCount = s.freeCount := rfl

/-- `mergeMasked` writes the vector file alone. -/
theorem mergeMasked_eq (k : BitVec 3) (z : Bool) (d s1 s2 : BitVec 5) :
    mergeMasked s k z d s1 s2 = { s with vr := (mergeMasked s k z d s1 s2).vr } := rfl
@[simp] theorem mergeMasked_cfg (k : BitVec 3) (z : Bool) (d s1 s2 : BitVec 5) : (mergeMasked s k z d s1 s2).cfg = s.cfg := rfl
@[simp] theorem mergeMasked_mode (k : BitVec 3) (z : Bool) (d s1 s2 : BitVec 5) : (mergeMasked s k z d s1 s2).mode = s.mode := rfl
@[simp] theorem mergeMasked_osSse (k : BitVec 3) (z : Bool) (d s1 s2 : BitVec 5) : (mergeMasked s k z d s1 s2).osSse = s.osSse := rfl
@[simp] theorem mergeMasked_osAvx (k : BitVec 3) (z : Bool) (d s1 s2 : BitVec 5) : (mergeMasked s k z d s1 s2).osAvx = s.osAvx := rfl
@[simp] theorem mergeMasked_osAvx512 (k : BitVec 3) (z : Bool) (d s1 s2 : BitVec 5) : (mergeMasked s k z d s1 s2).osAvx512 = s.osAvx512 := rfl
@[simp] theorem mergeMasked_ts (k : BitVec 3) (z : Bool) (d s1 s2 : BitVec 5) : (mergeMasked s k z d s1 s2).ts = s.ts := rfl
@[simp] theorem mergeMasked_acCheck (k : BitVec 3) (z : Bool) (d s1 s2 : BitVec 5) : (mergeMasked s k z d s1 s2).acCheck = s.acCheck := rfl
@[simp] theorem mergeMasked_k (k : BitVec 3) (z : Bool) (d s1 s2 : BitVec 5) : (mergeMasked s k z d s1 s2).k = s.k := rfl
@[simp] theorem mergeMasked_x (k : BitVec 3) (z : Bool) (d s1 s2 : BitVec 5) : (mergeMasked s k z d s1 s2).x = s.x := rfl
@[simp] theorem mergeMasked_rip (k : BitVec 3) (z : Bool) (d s1 s2 : BitVec 5) : (mergeMasked s k z d s1 s2).rip = s.rip := rfl
@[simp] theorem mergeMasked_rflags (k : BitVec 3) (z : Bool) (d s1 s2 : BitVec 5) : (mergeMasked s k z d s1 s2).rflags = s.rflags := rfl
@[simp] theorem mergeMasked_mxcsr (k : BitVec 3) (z : Bool) (d s1 s2 : BitVec 5) : (mergeMasked s k z d s1 s2).mxcsr = s.mxcsr := rfl
@[simp] theorem mergeMasked_x87 (k : BitVec 3) (z : Bool) (d s1 s2 : BitVec 5) : (mergeMasked s k z d s1 s2).x87 = s.x87 := rfl
@[simp] theorem mergeMasked_text (k : BitVec 3) (z : Bool) (d s1 s2 : BitVec 5) : (mergeMasked s k z d s1 s2).text = s.text := rfl
@[simp] theorem mergeMasked_mem (k : BitVec 3) (z : Bool) (d s1 s2 : BitVec 5) : (mergeMasked s k z d s1 s2).mem = s.mem := rfl
@[simp] theorem mergeMasked_freeCount (k : BitVec 3) (z : Bool) (d s1 s2 : BitVec 5) : (mergeMasked s k z d s1 s2).freeCount = s.freeCount := rfl

@[simp] theorem withFetchWord_rip (nbits v : Nat) : (s.withFetchWord nbits v).rip = s.rip := rfl
@[simp] theorem withFetchWord_mode (nbits v : Nat) : (s.withFetchWord nbits v).mode = s.mode := rfl
@[simp] theorem withFetchWord_vr (nbits v : Nat) : (s.withFetchWord nbits v).vr = s.vr := rfl

end Sys2Proof.Machine
end

