-- ==== Sys2Proof/Laws/Slices.lean ====
section
/-! SUPPORT. Laws/Slices.lean: what writing and reading a slice of a vector register does, bit by bit (R7). -/
namespace Sys2Proof.Machine

/-- A bit of a register after a slice write: the new value's inside the slice, the old one outside. -/
theorem getLsbD_setSlice {n : Nat} (v : VCell) (lo : Nat) (w : BitVec n) (j : Nat) (hj : j < 512) :
    (setSlice v lo w).getLsbD j = if lo ≤ j ∧ j < lo + n then w.getLsbD (j - lo) else v.getLsbD j := by
  unfold setSlice
  by_cases h1 : lo ≤ j
  · by_cases h2 : j < lo + n
    · have h3 : j - lo < n := by omega
      simp [h1, h2, h3, hj, Nat.not_lt.mpr h1]
    · have h3 : ¬ j - lo < n := by omega
      have h4 : w.getLsbD (j - lo) = false := BitVec.getLsbD_of_ge _ _ (by omega)
      simp [h1, h2, h3, h4, hj]
  · simp [h1, hj, Nat.lt_of_not_le h1]

/-- Bits at or above 512 of a cell read as 0. -/
theorem getLsbD_cell_ge (v : VCell) {j : Nat} (h : 512 ≤ j) : v.getLsbD j = false := BitVec.getLsbD_of_ge _ _ h

/-- A slice of a slice write, where the two slices are the same. -/
theorem extractLsb'_setSlice_same {n : Nat} (v : VCell) (lo : Nat) (w : BitVec n) (h : lo + n ≤ 512) :
    (setSlice v lo w).extractLsb' lo n = w := by
  apply BitVec.eq_of_getLsbD_eq
  intro j hj
  rw [BitVec.getLsbD_extractLsb', getLsbD_setSlice _ _ _ _ (by omega)]
  simp [hj]

/-- A slice of a slice write, where the two slices are apart. -/
theorem extractLsb'_setSlice_apart {n m : Nat} (v : VCell) (lo lo' : Nat) (w : BitVec n) (h : lo' + m ≤ 512)
    (ha : lo' + m ≤ lo ∨ lo + n ≤ lo') : (setSlice v lo w).extractLsb' lo' m = v.extractLsb' lo' m := by
  apply BitVec.eq_of_getLsbD_eq
  intro j hj
  rw [BitVec.getLsbD_extractLsb', BitVec.getLsbD_extractLsb', getLsbD_setSlice _ _ _ _ (by omega)]
  have : ¬ (lo ≤ lo' + j ∧ lo' + j < lo + n) := by omega
  simp [this]

/-- Writing back the slice a register holds changes nothing. -/
theorem setSlice_self (v : VCell) (lo n : Nat) : setSlice v lo (v.extractLsb' lo n) = v := by
  apply BitVec.eq_of_getLsbD_eq
  intro j hj
  rw [getLsbD_setSlice _ _ _ _ hj]
  split
  · rename_i h
    have h3 : j - lo < n := by omega
    have h4 : lo + (j - lo) = j := by omega
    simp [h3, h4]
  · rfl

/-- Every `MAXVL` is at least 128 and at most 512 (R21). -/
theorem maxVl_bounds (m : MaxVl) : 128 ≤ m.bits ∧ m.bits ≤ 512 := by cases m <;> decide

variable (s : State) (d : BitVec 5)

/-- `VR[d]` after `moveLow`, bit by bit (R131). -/
theorem getLsbD_moveLow (src : BitVec 5) (j : Nat) (hj : j < 512) :
    ((moveLow s d src).vreg d).getLsbD j = if j < 64 then (s.vreg src).getLsbD j else (s.vreg d).getLsbD j := by
  simp only [moveLow, vreg_setVslice_same, getLsbD_setSlice _ _ _ _ hj, State.low, State.vslice,
    BitVec.getLsbD_extractLsb', Nat.zero_le, true_and, Nat.zero_add, Nat.sub_zero]
  by_cases h : j < 64 <;> simp [h]

/-- `VR[d]` after `loadLegacy`, bit by bit (R132). -/
theorem getLsbD_loadLegacy (t : Quad) (j : Nat) (hj : j < 512) :
    ((loadLegacy s d t).vreg d).getLsbD j =
      if j < 64 then t.getLsbD j else if j < 128 then false else (s.vreg d).getLsbD j := by
  simp only [loadLegacy, vreg_setVslice_same, getLsbD_setSlice _ _ _ _ hj]
  by_cases h : j < 64
  · have : ¬ 64 ≤ j := by omega
    simp [h, this]
  · by_cases h2 : j < 128
    · have : 64 ≤ j := by omega
      simp [h, h2, this]
    · simp [h, h2]

/-- `VR[d]` after `mergeInto`, bit by bit (R151). -/
theorem getLsbD_mergeInto (a b : Quad) (j : Nat) (hj : j < 512) :
    ((mergeInto s d a b).vreg d).getLsbD j =
      if j < 64 then a.getLsbD j else if j < 128 then b.getLsbD (j - 64)
      else if j < s.cfg.maxVl.bits then false else (s.vreg d).getLsbD j := by
  simp only [mergeInto, vreg_clearFrom_same, vreg_setVslice_same, getLsbD_setSlice _ _ _ _ hj, setVslice_cfg]
  have hm := maxVl_bounds s.cfg.maxVl
  by_cases h : j < 64
  · have h1 : ¬ 128 ≤ j := by omega
    have h2 : ¬ 64 ≤ j := by omega
    simp [h, h1, h2]
  · by_cases h2 : j < 128
    · have h1 : ¬ 128 ≤ j := by omega
      have h3 : 64 ≤ j := by omega
      simp [h, h1, h2, h3]
    · by_cases h3 : j < s.cfg.maxVl.bits
      · have h4 : 128 ≤ j ∧ j < 128 + (s.cfg.maxVl.bits - 128) := by omega
        simp [h, h2, h3, h4]
      · have h4 : ¬ (128 ≤ j ∧ j < 128 + (s.cfg.maxVl.bits - 128)) := by omega
        simp [h, h2, h3, h4]

/-- `VR[d]` after `loadClearing`, bit by bit (R152). -/
theorem getLsbD_loadClearing (t : Quad) (j : Nat) (hj : j < 512) :
    ((loadClearing s d t).vreg d).getLsbD j =
      if j < 64 then t.getLsbD j else if j < s.cfg.maxVl.bits then false else (s.vreg d).getLsbD j := by
  simp only [loadClearing, vreg_clearFrom_same, vreg_setVslice_same, getLsbD_setSlice _ _ _ _ hj, setVslice_cfg]
  have hm := maxVl_bounds s.cfg.maxVl
  by_cases h : j < 64
  · have h1 : ¬ 64 ≤ j := by omega
    simp [h, h1]
  · by_cases h3 : j < s.cfg.maxVl.bits
    · have h4 : 64 ≤ j ∧ j < 64 + (s.cfg.maxVl.bits - 64) := by omega
      simp [h, h3, h4]
    · have h4 : ¬ (64 ≤ j ∧ j < 64 + (s.cfg.maxVl.bits - 64)) := by omega
      simp [h, h3, h4]

variable {d} {r : BitVec 5}

theorem moveLow_ne (src : BitVec 5) (h : r ≠ d) : (moveLow s d src).vreg r = s.vreg r := by
  simp [moveLow, vreg_setVslice_ne _ _ _ _ h]

theorem loadLegacy_ne (t : Quad) (h : r ≠ d) : (loadLegacy s d t).vreg r = s.vreg r := by
  simp [loadLegacy, vreg_setVslice_ne _ _ _ _ h]

theorem mergeInto_ne (a b : Quad) (h : r ≠ d) : (mergeInto s d a b).vreg r = s.vreg r := by
  simp [mergeInto, vreg_clearFrom_ne _ _ _ h, vreg_setVslice_ne _ _ _ _ h]

theorem loadClearing_ne (t : Quad) (h : r ≠ d) : (loadClearing s d t).vreg r = s.vreg r := by
  simp [loadClearing, vreg_clearFrom_ne _ _ _ h, vreg_setVslice_ne _ _ _ _ h]

theorem mergeMasked_ne (k : BitVec 3) (z : Bool) (s1 s2 : BitVec 5) (h : r ≠ d) :
    (mergeMasked s k z d s1 s2).vreg r = s.vreg r := mergeInto_ne s _ _ h

/-- A slice of a register is a value when every bit of it is. -/
theorem vslice_eq {s : State} {i : BitVec 5} {lo n : Nat} {w : BitVec n}
    (h : ∀ j, j < n → (s.vreg i).getLsbD (lo + j) = w.getLsbD j) : s.vslice i lo n = w := by
  apply BitVec.eq_of_getLsbD_eq
  intro j hj
  simp [State.vslice, hj, h j hj]

@[simp] theorem low_moveLow (s : State) (d src : BitVec 5) : (moveLow s d src).low d = s.low src := by
  apply vslice_eq
  intro j hj
  rw [getLsbD_moveLow _ _ _ _ (by omega)]
  simp [hj, State.low, State.vslice]

theorem moveLow_keeps (s : State) (d src : BitVec 5) {j : Nat} (h : 64 ≤ j) :
    ((moveLow s d src).vreg d).getLsbD j = (s.vreg d).getLsbD j := by
  by_cases hj : j < 512
  · have h' : ¬ j < 64 := by omega
    simp [getLsbD_moveLow _ _ _ _ hj, h']
  · rw [getLsbD_cell_ge _ (by omega), getLsbD_cell_ge _ (by omega)]

@[simp] theorem low_loadLegacy (s : State) (d : BitVec 5) (t : Quad) : (loadLegacy s d t).low d = t := by
  apply vslice_eq
  intro j hj
  rw [getLsbD_loadLegacy _ _ _ _ (by omega)]
  simp [hj]

@[simp] theorem high_loadLegacy (s : State) (d : BitVec 5) (t : Quad) : (loadLegacy s d t).high d = 0#64 := by
  apply vslice_eq
  intro j hj
  rw [getLsbD_loadLegacy _ _ _ _ (by omega)]
  have h1 : ¬ 64 + j < 64 := by omega
  have h2 : 64 + j < 128 := by omega
  simp [h2]

theorem loadLegacy_keeps (s : State) (d : BitVec 5) (t : Quad) {j : Nat} (h : 128 ≤ j) :
    ((loadLegacy s d t).vreg d).getLsbD j = (s.vreg d).getLsbD j := by
  by_cases hj : j < 512
  · have h1 : ¬ j < 64 := by omega
    have h2 : ¬ j < 128 := by omega
    simp [getLsbD_loadLegacy _ _ _ _ hj, h1, h2]
  · rw [getLsbD_cell_ge _ (by omega), getLsbD_cell_ge _ (by omega)]

@[simp] theorem low_mergeInto (s : State) (d : BitVec 5) (a b : Quad) : (mergeInto s d a b).low d = a := by
  apply vslice_eq
  intro j hj
  rw [getLsbD_mergeInto _ _ _ _ _ (by omega)]
  simp [hj]

@[simp] theorem high_mergeInto (s : State) (d : BitVec 5) (a b : Quad) : (mergeInto s d a b).high d = b := by
  apply vslice_eq
  intro j hj
  rw [getLsbD_mergeInto _ _ _ _ _ (by omega)]
  have h2 : 64 + j < 128 := by omega
  simp [h2]

theorem mergeInto_clears (s : State) (d : BitVec 5) (a b : Quad) {j : Nat} (h : 128 ≤ j)
    (hm : j < s.cfg.maxVl.bits) : ((mergeInto s d a b).vreg d).getLsbD j = false := by
  have hb := maxVl_bounds s.cfg.maxVl
  rw [getLsbD_mergeInto _ _ _ _ _ (by omega)]
  have h1 : ¬ j < 64 := by omega
  have h2 : ¬ j < 128 := by omega
  simp [hm, h1, h2]

@[simp] theorem low_loadClearing (s : State) (d : BitVec 5) (t : Quad) : (loadClearing s d t).low d = t := by
  apply vslice_eq
  intro j hj
  rw [getLsbD_loadClearing _ _ _ _ (by omega)]
  simp [hj]

theorem loadClearing_clears (s : State) (d : BitVec 5) (t : Quad) {j : Nat} (h : 64 ≤ j)
    (hm : j < s.cfg.maxVl.bits) : ((loadClearing s d t).vreg d).getLsbD j = false := by
  have hb := maxVl_bounds s.cfg.maxVl
  rw [getLsbD_loadClearing _ _ _ _ (by omega)]
  have h1 : ¬ j < 64 := by omega
  simp [hm, h1]

@[simp] theorem high_loadClearing (s : State) (d : BitVec 5) (t : Quad) : (loadClearing s d t).high d = 0#64 := by
  apply vslice_eq
  intro j hj
  have hb := maxVl_bounds s.cfg.maxVl
  rw [loadClearing_clears _ _ _ (by omega) (by omega)]
  simp

/-- The low quadword of the masked register forms (R177). -/
theorem low_mergeMasked (s : State) (k : BitVec 3) (z : Bool) (d s1 s2 : BitVec 5) :
    (mergeMasked s k z d s1 s2).low d = if maskOn s k then s.low s2 else maskedOffLow s d z := low_mergeInto _ _ _ _

@[simp] theorem high_mergeMasked (s : State) (k : BitVec 3) (z : Bool) (d s1 s2 : BitVec 5) :
    (mergeMasked s k z d s1 s2).high d = s.high s1 := high_mergeInto _ _ _ _

theorem mergeMasked_clears (s : State) (k : BitVec 3) (z : Bool) (d s1 s2 : BitVec 5) {j : Nat} (h : 128 ≤ j)
    (hm : j < s.cfg.maxVl.bits) : ((mergeMasked s k z d s1 s2).vreg d).getLsbD j = false :=
  mergeInto_clears _ _ _ _ h hm

/-- No write reaches a bit at or above `MAXVL` of any register (R20, R21). -/
theorem moveLow_above (s : State) (d src r : BitVec 5) {j : Nat} (h : s.cfg.maxVl.bits ≤ j) :
    ((moveLow s d src).vreg r).getLsbD j = (s.vreg r).getLsbD j := by
  have hb := maxVl_bounds s.cfg.maxVl
  by_cases hr : r = d
  · subst hr; exact moveLow_keeps _ _ _ (by omega)
  · rw [moveLow_ne _ _ hr]

theorem loadLegacy_above (s : State) (d r : BitVec 5) (t : Quad) {j : Nat} (h : s.cfg.maxVl.bits ≤ j) :
    ((loadLegacy s d t).vreg r).getLsbD j = (s.vreg r).getLsbD j := by
  have hb := maxVl_bounds s.cfg.maxVl
  by_cases hr : r = d
  · subst hr; exact loadLegacy_keeps _ _ _ (by omega)
  · rw [loadLegacy_ne _ _ hr]

theorem mergeInto_above (s : State) (d r : BitVec 5) (a b : Quad) {j : Nat} (h : s.cfg.maxVl.bits ≤ j) :
    ((mergeInto s d a b).vreg r).getLsbD j = (s.vreg r).getLsbD j := by
  have hb := maxVl_bounds s.cfg.maxVl
  by_cases hr : r = d
  · subst hr
    by_cases hj : j < 512
    · have h1 : ¬ j < 64 := by omega
      have h2 : ¬ j < 128 := by omega
      have h3 : ¬ j < s.cfg.maxVl.bits := by omega
      rw [getLsbD_mergeInto _ _ _ _ _ hj, if_neg h1, if_neg h2, if_neg h3]
    · rw [getLsbD_cell_ge _ (by omega), getLsbD_cell_ge _ (by omega)]
  · rw [mergeInto_ne _ _ _ hr]

theorem loadClearing_above (s : State) (d r : BitVec 5) (t : Quad) {j : Nat} (h : s.cfg.maxVl.bits ≤ j) :
    ((loadClearing s d t).vreg r).getLsbD j = (s.vreg r).getLsbD j := by
  have hb := maxVl_bounds s.cfg.maxVl
  by_cases hr : r = d
  · subst hr
    by_cases hj : j < 512
    · have h1 : ¬ j < 64 := by omega
      have h3 : ¬ j < s.cfg.maxVl.bits := by omega
      rw [getLsbD_loadClearing _ _ _ _ hj, if_neg h1, if_neg h3]
    · rw [getLsbD_cell_ge _ (by omega), getLsbD_cell_ge _ (by omega)]
  · rw [loadClearing_ne _ _ hr]

theorem mergeMasked_above (s : State) (k : BitVec 3) (z : Bool) (d s1 s2 r : BitVec 5) {j : Nat}
    (h : s.cfg.maxVl.bits ≤ j) : ((mergeMasked s k z d s1 s2).vreg r).getLsbD j = (s.vreg r).getLsbD j :=
  mergeInto_above _ _ _ _ _ h

/-- What a masked-off register destination ends with (R177). -/
@[simp] theorem maskedOffLow_true (s : State) (d : BitVec 5) : maskedOffLow s d true = 0#64 := rfl
@[simp] theorem maskedOffLow_false (s : State) (d : BitVec 5) : maskedOffLow s d false = s.low d := rfl

end Sys2Proof.Machine
end

