-- ==== Sys2Proof/Laws/Ops.lean ====
section
/-! SUPPORT. Laws/Ops.lean: for each check and each shared operation, once, everything it can answer. -/
namespace Sys2Proof.Machine

@[simp] theorem guardOn_none (k : Result) : guardOn none k = k := rfl
@[simp] theorem guardOn_fault (f : Fault) (k : Result) : guardOn (some (.fault f)) k = .fault f := rfl
@[simp] theorem guardOn_refuse (r : Refusal) (k : Result) : guardOn (some (.refuse r)) k = .refused r := rfl

/-- A stop is no next state. -/
theorem stop_ne_next (stop : Stop) (t : State) : stop.result ≠ .next t := by
  cases stop <;> simp [Stop.result, raise]

/-- A guarded form goes on only past a check that passes. -/
theorem guardOn_next {c : Option Stop} {k : Result} {t : State} :
    guardOn c k = .next t ↔ c = none ∧ k = .next t := by
  cases c with
  | none => simp
  | some stop => simp [guardOn, stop_ne_next]

/-- Where a guarded form's fault comes from. -/
theorem guardOn_fault_cases {c : Option Stop} {k : Result} {f : Fault} :
    guardOn c k = .fault f ↔ c = some (.fault f) ∨ (c = none ∧ k = .fault f) := by
  rcases c with _ | _ | _ <;> simp [guardOn, Stop.result, raise]

/-- Where a guarded form's refusal comes from. -/
theorem guardOn_refused_cases {c : Option Stop} {k : Result} {r : Refusal} :
    guardOn c k = .refused r ↔ c = some (.refuse r) ∨ (c = none ∧ k = .refused r) := by
  rcases c with _ | _ | _ <;> simp [guardOn, Stop.result, raise]

/-- `retire` advances `rip` where there is room (R27). -/
theorem retire_of_room {len : Nat} {s : State} (h : s.rip.toNat + len < 2 ^ s.mode.addrWidth) :
    retire len s = .next (s.setRip (s.rip + BitVec.ofNat 64 len)) := by simp [retire, h]

theorem retire_of_no_room {len : Nat} {s : State} (h : ¬ s.rip.toNat + len < 2 ^ s.mode.addrWidth) :
    retire len s = .refused .ripWrap := by simp [retire, h]

theorem retire_next {len : Nat} {s t : State} :
    retire len s = .next t ↔
      s.rip.toNat + len < 2 ^ s.mode.addrWidth ∧ t = s.setRip (s.rip + BitVec.ofNat 64 len) := by
  unfold retire
  split <;> simp_all [eq_comm]

theorem retire_ne_fault {len : Nat} {s : State} {f : Fault} : retire len s ≠ .fault f := by
  unfold retire; split <;> simp

theorem retire_refused {len : Nat} {s : State} {r : Refusal} (h : retire len s = .refused r) : r = .ripWrap := by
  unfold retire at h; split at h <;> simp_all

@[simp] theorem modeCheck_eq_none {i : Instr} {s : State} : modeCheck i s = none ↔ HasForm s i := by
  simp [modeCheck, HasForm]

theorem modeCheck_of_not {i : Instr} {s : State} (h : ¬ HasForm s i) :
    modeCheck i s = some (.refuse .notNameableIn32) := by
  simp only [HasForm] at h; simp [modeCheck, h]

@[simp] theorem vvvvCheck_eq_none {v : BitVec 4} : vvvvCheck v = none ↔ v = 15#4 := by simp [vvvvCheck]

theorem vvvvCheck_of_ne {v : BitVec 4} (h : v ≠ 15#4) : vvvvCheck v = some (.fault .ud) := by simp [vvvvCheck, h]

@[simp] theorem zeroingCheck_eq_none {k : BitVec 3} {z : Bool} :
    zeroingCheck k z = none ↔ ¬ (k = 0#3 ∧ z = true) := by simp [zeroingCheck]

/-- What a class check answers (R203, R204). -/
theorem classCheck_cases (has os ts : Bool) :
    (classCheck has os ts = none ∧ has = true ∧ os = true ∧ ts = false) ∨
    (classCheck has os ts = some (.fault .ud) ∧ ¬ (has = true ∧ os = true)) ∨
    (classCheck has os ts = some (.fault .nm) ∧ has = true ∧ os = true ∧ ts = true) := by
  cases has <;> cases os <;> cases ts <;> simp [classCheck]

@[simp] theorem classCheck_eq_none {has os ts : Bool} :
    classCheck has os ts = none ↔ has = true ∧ os = true ∧ ts = false := by
  cases has <;> cases os <;> cases ts <;> simp [classCheck]

@[simp] theorem accessCheck_eq_none {s : State} {seg : Seg} {ea : Addr} {kind : AccessKind} :
    accessCheck s seg ea kind = none ↔ Admitted s seg ea kind := by
  unfold accessCheck Admitted
  cases memCheck s seg ea kind with
  | some stop => simp
  | none => simp

/-- An admitted load goes on with the eight bytes read (R57). -/
theorem memRead_of_admitted {s : State} {seg : Seg} {ea : Addr} {k : Quad → Result} (h : Admitted s seg ea .read) :
    memRead s seg ea k = k (s.mem.readQuad ea.toNat) := by
  simp [memRead, accessCheck_eq_none.mpr h]

theorem memRead_next {s t : State} {seg : Seg} {ea : Addr} {k : Quad → Result} :
    memRead s seg ea k = .next t ↔ Admitted s seg ea .read ∧ k (s.mem.readQuad ea.toNat) = .next t := by
  simp [memRead, guardOn_next]

/-- An admitted store goes on with the eight bytes written (R57). -/
theorem memWrite_of_admitted {s : State} {seg : Seg} {ea : Addr} {v : Quad} {k : State → Result}
    (h : Admitted s seg ea .write) :
    memWrite s seg ea v k = k (s.setMem (s.mem.writeQuad ea.toNat v)) := by
  simp [memWrite, accessCheck_eq_none.mpr h]

theorem memWrite_next {s t : State} {seg : Seg} {ea : Addr} {v : Quad} {k : State → Result} :
    memWrite s seg ea v k = .next t ↔
      Admitted s seg ea .write ∧ k (s.setMem (s.mem.writeQuad ea.toNat v)) = .next t := by
  simp [memWrite, guardOn_next]

/-- A masked-off probe that goes on does so with the state it was given, or with the choice counter advanced (R58). -/
theorem maskedOffProbe_next {s t : State} {seg : Seg} {ea : Addr} {kind : AccessKind} {k : State → Result}
    (h : maskedOffProbe s seg ea kind k = .next t) :
    k s = .next t ∨ k s.countChoice = .next t := by
  unfold maskedOffProbe at h
  split at h
  · exact .inl h
  · split at h
    · exact .inl h
    · exact absurd h (stop_ne_next _ _)
    · split at h
      · exact absurd h (stop_ne_next _ _)
      · exact .inr h

/-- What a masked-off access tests admits every address MemCheck admits (R58). -/
theorem probeCheck_of_admitted {s : State} {seg : Seg} {ea : Addr} {kind : AccessKind}
    (h : memCheck s seg ea kind = none) : probeCheck s seg ea kind = none := by
  simp [probeCheck, h]

/-- A masked-off access's test gives no stop that MemCheck does not give (R58). -/
theorem probeCheck_some {s : State} {seg : Seg} {ea : Addr} {kind : AccessKind} {stop : Stop}
    (h : probeCheck s seg ea kind = some stop) : memCheck s seg ea kind = some stop := by
  unfold probeCheck at h
  split at h <;> simp_all

/-- A masked-off probe of an address its test admits does nothing (R58). -/
theorem maskedOffProbe_of_admitted {s : State} {seg : Seg} {ea : Addr} {kind : AccessKind} {k : State → Result}
    (h : probeCheck s seg ea kind = none) : maskedOffProbe s seg ea kind k = k s := by
  simp [maskedOffProbe, h]

/-- Under `never` a masked-off probe does nothing (R58). -/
theorem maskedOffProbe_of_never {s : State} {seg : Seg} {ea : Addr} {kind : AccessKind} {k : State → Result}
    (h : s.cfg.maskedOffFaults = .never) : maskedOffProbe s seg ea kind k = k s := by
  unfold maskedOffProbe
  split <;> simp [h]

/-- An admitted access lies within the address space (R55). -/
theorem memCheck_none_space {s : State} {seg : Seg} {ea : Addr} {kind : AccessKind}
    (h : memCheck s seg ea kind = none) : spaceCheck s ea kind = none := by
  unfold memCheck at h
  split at h
  · simp at h
  · split at h <;> simp_all

/-- An admitted access does not run past the last address (R55). -/
theorem memCheck_none_top {s : State} {seg : Seg} {ea : Addr} {kind : AccessKind}
    (h : memCheck s seg ea kind = none) : ea.toNat + 7 < 2 ^ s.mode.addrWidth := by
  have := memCheck_none_space h
  unfold spaceCheck at this
  split at this
  · simp at this
  · omega

/-- An address space has at most 2^64 bytes (R6). -/
theorem addrWidth_le (m : Mode) : 2 ^ m.addrWidth ≤ 2 ^ 64 := by cases m <;> decide

/-- An admitted store does not meet the program text (R63). -/
theorem memCheck_none_text {s : State} {seg : Seg} {ea : Addr}
    (h : memCheck s seg ea .write = none) : s.text.meets ea.toNat = false := by
  have := memCheck_none_space h
  unfold spaceCheck at this
  split at this
  · simp at this
  · split at this <;> simp_all

/-- A Ready legacy form passes its class check (R203). -/
theorem checkLegacy_of_ready {s : State} {i : Instr} (hc : classOf i = .legacy) (h : Ready s i) :
    checkLegacy s = none := by
  rw [Ready, hc] at h
  exact classCheck_eq_none.mpr h

/-- A Ready VEX form passes its class check (R203). -/
theorem checkVex_of_ready {s : State} {i : Instr} (hc : classOf i = .vex) (h : Ready s i) : checkVex s = none := by
  rw [Ready, hc] at h
  exact classCheck_eq_none.mpr h

/-- A Ready EVEX form passes its class check (R204). -/
theorem checkEvex_of_ready {s : State} {i : Instr} (hc : classOf i = .evex) (h : Ready s i) : checkEvex s = none := by
  rw [Ready, hc] at h
  exact classCheck_eq_none.mpr h

/-- A form retires in the state its writes left, which have touched neither `rip` nor the mode (R27). -/
theorem retire_of_kept {s t : State} {i : Instr} (h : RipRoom s i) (hr : t.rip = s.rip) (hm : t.mode = s.mode) :
    retire i.len t = .next (t.setRip (s.rip + BitVec.ofNat 64 i.len)) := by
  rw [retire_of_room (by rw [hr, hm]; exact h), hr]

/-- The writemask is on without a mask or with the mask bit set (R170). -/
theorem maskOn_eq_true {s : State} {k : BitVec 3} : maskOn s k = true ↔ k = 0#3 ∨ (s.kreg k).getLsbD 0 = true := by
  simp [maskOn]

theorem maskOn_eq_false {s : State} {k : BitVec 3} : maskOn s k = false ↔ k ≠ 0#3 ∧ (s.kreg k).getLsbD 0 = false := by
  simp [maskOn]

/-- An admitted access ends within 2^64 bytes (R55). -/
theorem admitted_end {s : State} {seg : Seg} {ea : Addr} {kind : AccessKind} (h : Admitted s seg ea kind) :
    ea.toNat + 8 ≤ 2 ^ 64 := by
  have h1 := memCheck_none_top h.1
  have h2 := addrWidth_le s.mode
  omega

end Sys2Proof.Machine
end

