-- ==== Sys2Proof/Laws/Exec.lean ====
section
/-! SUPPORT. Laws/Exec.lean: for each form, once, exactly when it completes and in which state. -/
namespace Sys2Proof.Machine

/-- The class check of a form passes exactly when the form is Ready (R203, R204). -/
theorem checkLegacy_eq_none {s : State} {i : Instr} (hc : classOf i = .legacy) : checkLegacy s = none ↔ Ready s i := by
  rw [Ready, hc]; exact classCheck_eq_none

theorem checkVex_eq_none {s : State} {i : Instr} (hc : classOf i = .vex) : checkVex s = none ↔ Ready s i := by
  rw [Ready, hc]; exact classCheck_eq_none

theorem checkEvex_eq_none {s : State} {i : Instr} (hc : classOf i = .evex) : checkEvex s = none ↔ Ready s i := by
  rw [Ready, hc]; exact classCheck_eq_none

/-- A form whose writes touched neither `rip` nor the mode retires exactly where there is room (R27). -/
theorem retire_kept_next {s t u : State} {i : Instr} (hr : u.rip = s.rip) (hm : u.mode = s.mode) :
    retire i.len u = .next t ↔ RipRoom s i ∧ t = u.setRip (s.rip + BitVec.ofNat 64 i.len) := by
  rw [retire_next, hr, hm]; rfl

variable {s t : State} {i : Instr}

theorem retire_moveLow_next {d src : BitVec 5} : retire i.len (moveLow s d src) = .next t ↔
    RipRoom s i ∧ t = (moveLow s d src).setRip (s.rip + BitVec.ofNat 64 i.len) := retire_kept_next rfl rfl

theorem retire_loadLegacy_next {d : BitVec 5} {q : Quad} : retire i.len (loadLegacy s d q) = .next t ↔
    RipRoom s i ∧ t = (loadLegacy s d q).setRip (s.rip + BitVec.ofNat 64 i.len) := retire_kept_next rfl rfl

theorem retire_mergeInto_next {d : BitVec 5} {a b : Quad} : retire i.len (mergeInto s d a b) = .next t ↔
    RipRoom s i ∧ t = (mergeInto s d a b).setRip (s.rip + BitVec.ofNat 64 i.len) := retire_kept_next rfl rfl

theorem retire_loadClearing_next {d : BitVec 5} {q : Quad} : retire i.len (loadClearing s d q) = .next t ↔
    RipRoom s i ∧ t = (loadClearing s d q).setRip (s.rip + BitVec.ofNat 64 i.len) := retire_kept_next rfl rfl

theorem retire_mergeMasked_next {k : BitVec 3} {z : Bool} {d s1 s2 : BitVec 5} :
    retire i.len (mergeMasked s k z d s1 s2) = .next t ↔
      RipRoom s i ∧ t = (mergeMasked s k z d s1 s2).setRip (s.rip + BitVec.ofNat 64 i.len) := retire_kept_next rfl rfl

theorem retire_setMem_next {m : Memory} : retire i.len (s.setMem m) = .next t ↔
    RipRoom s i ∧ t = (s.setMem m).setRip (s.rip + BitVec.ofNat 64 i.len) := retire_kept_next rfl rfl

/-- No write of a form touches what `ControlKept` lists (R34). -/
theorem controlKept_moveLow {d src : BitVec 5} {r : Addr} : ControlKept s ((moveLow s d src).setRip r) := by
  constructor <;> rfl

theorem controlKept_loadLegacy {d : BitVec 5} {q : Quad} {r : Addr} :
    ControlKept s ((loadLegacy s d q).setRip r) := by constructor <;> rfl

theorem controlKept_mergeInto {d : BitVec 5} {a b : Quad} {r : Addr} :
    ControlKept s ((mergeInto s d a b).setRip r) := by constructor <;> rfl

theorem controlKept_loadClearing {d : BitVec 5} {q : Quad} {r : Addr} :
    ControlKept s ((loadClearing s d q).setRip r) := by constructor <;> rfl

theorem controlKept_loadClearing_countChoice {d : BitVec 5} {q : Quad} {r : Addr} :
    ControlKept s ((loadClearing s.countChoice d q).setRip r) := by constructor <;> rfl

theorem controlKept_mergeMasked {k : BitVec 3} {z : Bool} {d s1 s2 : BitVec 5} {r : Addr} :
    ControlKept s ((mergeMasked s k z d s1 s2).setRip r) := by constructor <;> rfl

theorem controlKept_setMem {m : Memory} {r : Addr} : ControlKept s ((s.setMem m).setRip r) := by constructor <;> rfl

theorem controlKept_countChoice {r : Addr} : ControlKept s (s.countChoice.setRip r) := by constructor <;> rfl

theorem controlKept_setRip {r : Addr} : ControlKept s (s.setRip r) := by constructor <;> rfl

theorem exec_l10r_next {rex : Bool} {d src : BitVec 4} : exec (.l10r rex d src) s = .next t ↔
    HasForm s (.l10r rex d src) ∧ Ready s (.l10r rex d src) ∧ RipRoom s (.l10r rex d src) ∧
      t = (moveLow s (xmm d) (xmm src)).setRip (s.rip + BitVec.ofNat 64 (Instr.l10r rex d src).len) := by
  simp only [exec, execL10R, guardOn_next, modeCheck_eq_none, checkLegacy_eq_none (i := .l10r rex d src) rfl,
    retire_moveLow_next]

theorem exec_l11r_next {rex : Bool} {d src : BitVec 4} : exec (.l11r rex d src) s = .next t ↔
    HasForm s (.l11r rex d src) ∧ Ready s (.l11r rex d src) ∧ RipRoom s (.l11r rex d src) ∧
      t = (moveLow s (xmm d) (xmm src)).setRip (s.rip + BitVec.ofNat 64 (Instr.l11r rex d src).len) := by
  simp only [exec, execL11R, guardOn_next, modeCheck_eq_none, checkLegacy_eq_none (i := .l11r rex d src) rfl,
    retire_moveLow_next]

theorem exec_l10m_next {rex : Bool} {d : BitVec 4} {m : MemOp} {i : Instr} {ea : Addr} (hi : i = .l10m rex d m)
    (he : ea = effAddr s plainDisp i.len m) : exec i s = .next t ↔
    HasForm s i ∧ Ready s i ∧ Admitted s (segOf m) ea .read ∧ RipRoom s i ∧
      t = (loadLegacy s (xmm d) (s.mem.readQuad ea.toNat)).setRip (s.rip + BitVec.ofNat 64 i.len) := by
  subst hi; subst he
  simp only [exec, execL10M, guardOn_next, modeCheck_eq_none, checkLegacy_eq_none (i := .l10m rex d m) rfl,
    memRead_next, retire_loadLegacy_next]

theorem exec_l11m_next {rex : Bool} {src : BitVec 4} {m : MemOp} {i : Instr} {ea : Addr} (hi : i = .l11m rex m src)
    (he : ea = effAddr s plainDisp i.len m) : exec i s = .next t ↔
    HasForm s i ∧ Ready s i ∧ Admitted s (segOf m) ea .write ∧ RipRoom s i ∧
      t = (s.setMem (s.mem.writeQuad ea.toNat (s.low (xmm src)))).setRip (s.rip + BitVec.ofNat 64 i.len) := by
  subst hi; subst he
  simp only [exec, execL11M, guardOn_next, modeCheck_eq_none, checkLegacy_eq_none (i := .l11m rex m src) rfl,
    memWrite_next, retire_setMem_next]

theorem exec_v10r_next {vex3 : Bool} {d s1 s2 : BitVec 4} : exec (.v10r vex3 d s1 s2) s = .next t ↔
    HasForm s (.v10r vex3 d s1 s2) ∧ Ready s (.v10r vex3 d s1 s2) ∧ RipRoom s (.v10r vex3 d s1 s2) ∧
      t = (mergeInto s (xmm d) (s.low (xmm s2)) (s.high (xmm s1))).setRip
        (s.rip + BitVec.ofNat 64 (Instr.v10r vex3 d s1 s2).len) := by
  simp only [exec, execV10R, guardOn_next, modeCheck_eq_none, checkVex_eq_none (i := .v10r vex3 d s1 s2) rfl,
    retire_mergeInto_next]

theorem exec_v11r_next {vex3 : Bool} {d s1 s2 : BitVec 4} : exec (.v11r vex3 d s1 s2) s = .next t ↔
    HasForm s (.v11r vex3 d s1 s2) ∧ Ready s (.v11r vex3 d s1 s2) ∧ RipRoom s (.v11r vex3 d s1 s2) ∧
      t = (mergeInto s (xmm d) (s.low (xmm s2)) (s.high (xmm s1))).setRip
        (s.rip + BitVec.ofNat 64 (Instr.v11r vex3 d s1 s2).len) := by
  simp only [exec, execV11R, guardOn_next, modeCheck_eq_none, checkVex_eq_none (i := .v11r vex3 d s1 s2) rfl,
    retire_mergeInto_next]

theorem exec_v10m_next {vex3 : Bool} {vvvv d : BitVec 4} {m : MemOp} {i : Instr} {ea : Addr}
    (hi : i = .v10m vex3 vvvv d m) (he : ea = effAddr s plainDisp i.len m) : exec i s = .next t ↔
    HasForm s i ∧ vvvv = 15#4 ∧ Ready s i ∧ Admitted s (segOf m) ea .read ∧ RipRoom s i ∧
      t = (loadClearing s (xmm d) (s.mem.readQuad ea.toNat)).setRip (s.rip + BitVec.ofNat 64 i.len) := by
  subst hi; subst he
  simp only [exec, execV10M, guardOn_next, modeCheck_eq_none, vvvvCheck_eq_none,
    checkVex_eq_none (i := .v10m vex3 vvvv d m) rfl, memRead_next, retire_loadClearing_next]

theorem exec_v11m_next {vex3 : Bool} {vvvv src : BitVec 4} {m : MemOp} {i : Instr} {ea : Addr}
    (hi : i = .v11m vex3 vvvv m src) (he : ea = effAddr s plainDisp i.len m) : exec i s = .next t ↔
    HasForm s i ∧ vvvv = 15#4 ∧ Ready s i ∧ Admitted s (segOf m) ea .write ∧ RipRoom s i ∧
      t = (s.setMem (s.mem.writeQuad ea.toNat (s.low (xmm src)))).setRip (s.rip + BitVec.ofNat 64 i.len) := by
  subst hi; subst he
  simp only [exec, execV11M, guardOn_next, modeCheck_eq_none, vvvvCheck_eq_none,
    checkVex_eq_none (i := .v11m vex3 vvvv m src) rfl, memWrite_next,
    retire_setMem_next]

theorem exec_e10r_next {k : BitVec 3} {z : Bool} {d s1 s2 : BitVec 5} : exec (.e10r k z d s1 s2) s = .next t ↔
    HasForm s (.e10r k z d s1 s2) ∧ ¬ (k = 0#3 ∧ z = true) ∧ Ready s (.e10r k z d s1 s2) ∧
      RipRoom s (.e10r k z d s1 s2) ∧
      t = (mergeMasked s k z d s1 s2).setRip (s.rip + BitVec.ofNat 64 (Instr.e10r k z d s1 s2).len) := by
  simp only [exec, execE10R, guardOn_next, modeCheck_eq_none, zeroingCheck_eq_none,
    checkEvex_eq_none (i := .e10r k z d s1 s2) rfl, retire_mergeMasked_next]

theorem exec_e11r_next {k : BitVec 3} {z : Bool} {d s1 s2 : BitVec 5} : exec (.e11r k z d s1 s2) s = .next t ↔
    HasForm s (.e11r k z d s1 s2) ∧ ¬ (k = 0#3 ∧ z = true) ∧ Ready s (.e11r k z d s1 s2) ∧
      RipRoom s (.e11r k z d s1 s2) ∧
      t = (mergeMasked s k z d s1 s2).setRip (s.rip + BitVec.ofNat 64 (Instr.e11r k z d s1 s2).len) := by
  simp only [exec, execE11R, guardOn_next, modeCheck_eq_none, zeroingCheck_eq_none,
    checkEvex_eq_none (i := .e11r k z d s1 s2) rfl, retire_mergeMasked_next]

/-- The EVEX load past its checks, with its mask on or off (R173). -/
theorem exec_e10m_next {k : BitVec 3} {z : Bool} {vvvv : BitVec 4} {d : BitVec 5} {m : MemOp} {i : Instr} {ea : Addr}
    (hi : i = .e10m k z vvvv d m) (he : ea = effAddr s tuple1Disp i.len m) : exec i s = .next t ↔
    HasForm s i ∧ ¬ (k = 0#3 ∧ z = true) ∧ vvvv = 15#4 ∧ Ready s i ∧
      (if maskOn s k then
        Admitted s (segOf m) ea .read ∧ RipRoom s i ∧
          t = (loadClearing s d (s.mem.readQuad ea.toNat)).setRip (s.rip + BitVec.ofNat 64 i.len)
      else maskedOffProbe s (segOf m) ea .read
        (fun u => retire i.len (loadClearing u d (maskedOffLow u d z))) = .next t) := by
  subst hi; subst he
  simp only [exec, execE10M, guardOn_next, modeCheck_eq_none, zeroingCheck_eq_none, vvvvCheck_eq_none,
    checkEvex_eq_none (i := .e10m k z vvvv d m) rfl]
  split
  · simp only [memRead_next, retire_loadClearing_next]
  · rfl

/-- The EVEX store past its checks, with its mask on or off (R175). -/
theorem exec_e11m_next {k : BitVec 3} {vvvv : BitVec 4} {src : BitVec 5} {m : MemOp} {i : Instr} {ea : Addr}
    (hi : i = .e11m k vvvv m src) (he : ea = effAddr s tuple1Disp i.len m) : exec i s = .next t ↔
    HasForm s i ∧ vvvv = 15#4 ∧ Ready s i ∧
      (if maskOn s k then
        Admitted s (segOf m) ea .write ∧ RipRoom s i ∧
          t = (s.setMem (s.mem.writeQuad ea.toNat (s.low src))).setRip (s.rip + BitVec.ofNat 64 i.len)
      else maskedOffProbe s (segOf m) ea .write (fun u => retire i.len u) = .next t) := by
  subst hi; subst he
  simp only [exec, execE11M, guardOn_next, modeCheck_eq_none, vvvvCheck_eq_none,
    checkEvex_eq_none (i := .e11m k vvvv m src) rfl]
  split
  · simp only [memWrite_next, retire_setMem_next]
  · rfl

/-- A masked-off load that completes does so from the state it was given, but for the choice counter (R58, R173). -/
theorem maskedOff_load_next {z : Bool} {d : BitVec 5} {seg : Seg} {ea : Addr}
    (h : maskedOffProbe s seg ea .read (fun u => retire i.len (loadClearing u d (maskedOffLow u d z))) = .next t) :
    RipRoom s i ∧ ∃ u, (u = s ∨ u = s.countChoice) ∧
      t = (loadClearing u d (maskedOffLow u d z)).setRip (s.rip + BitVec.ofNat 64 i.len) := by
  rcases maskedOffProbe_next h with h | h
  · have h := retire_loadClearing_next.mp h
    exact ⟨h.1, s, .inl rfl, h.2⟩
  · have h := retire_loadClearing_next.mp h
    exact ⟨h.1, _, .inr rfl, h.2⟩

/-- A masked-off store that completes changes `rip`, and at most the choice counter beside it (R58, R175). -/
theorem maskedOff_store_next {seg : Seg} {ea : Addr}
    (h : maskedOffProbe s seg ea .write (fun u => retire i.len u) = .next t) :
    RipRoom s i ∧ ∃ u, (u = s ∨ u = s.countChoice) ∧ t = u.setRip (s.rip + BitVec.ofNat 64 i.len) := by
  rcases maskedOffProbe_next h with h | h
  · have h := (retire_kept_next (s := s) rfl rfl).mp h
    exact ⟨h.1, s, .inl rfl, h.2⟩
  · have h := (retire_kept_next (s := s) (u := s.countChoice) rfl rfl).mp h
    exact ⟨h.1, _, .inr rfl, h.2⟩

end Sys2Proof.Machine
end

