-- ==== Sys2Proof/Laws/Checks.lean ====
section
/-! SUPPORT. Laws/Checks.lean: every form is its checks in the order of R208, then its body (`exec_eq_checks`), so that a
claim over all forms splits on the body alone. -/
namespace Sys2Proof.Machine

/-- The zeroing check of a form; a form with no `z` has none (R99). -/
def formZeroing (i : Instr) : Option Stop :=
  match maskOf i with
  | some (k, z) => zeroingCheck k z
  | none => none

/-- The `vvvv` check of a form; a form that does not reserve the field has none (R102). -/
def formVvvv (i : Instr) : Option Stop :=
  match reservedVvvv i with
  | some v => vvvvCheck v
  | none => none

/-- The class check of a form (R203, R204). -/
def formClass (i : Instr) (s : State) : Option Stop :=
  classCheck (s.hasClass (classOf i)) (s.osClass (classOf i)) s.ts

/-- What a form does past its checks (R131 to R134, R151 to R154, R172 to R175). -/
def formBody (i : Instr) (s : State) : Result :=
  match i with
  | .l10r _ d src | .l11r _ d src => retire i.len (moveLow s (xmm d) (xmm src))
  | .l10m _ d m =>
    memRead s (segOf m) (effAddr s plainDisp i.len m) fun t => retire i.len (loadLegacy s (xmm d) t)
  | .l11m _ m src | .v11m _ _ m src =>
    memWrite s (segOf m) (effAddr s plainDisp i.len m) (s.low (xmm src)) fun t => retire i.len t
  | .v10r _ d s1 s2 | .v11r _ d s1 s2 => retire i.len (mergeInto s (xmm d) (s.low (xmm s2)) (s.high (xmm s1)))
  | .v10m _ _ d m =>
    memRead s (segOf m) (effAddr s plainDisp i.len m) fun t => retire i.len (loadClearing s (xmm d) t)
  | .e10r k z d s1 s2 | .e11r k z d s1 s2 => retire i.len (mergeMasked s k z d s1 s2)
  | .e10m k z _ d m =>
    if maskOn s k then
      memRead s (segOf m) (effAddr s tuple1Disp i.len m) fun t => retire i.len (loadClearing s d t)
    else
      maskedOffProbe s (segOf m) (effAddr s tuple1Disp i.len m) .read fun t =>
      retire i.len (loadClearing t d (maskedOffLow t d z))
  | .e11m k _ m src =>
    if maskOn s k then
      memWrite s (segOf m) (effAddr s tuple1Disp i.len m) (s.low src) fun t => retire i.len t
    else maskedOffProbe s (segOf m) (effAddr s tuple1Disp i.len m) .write fun t => retire i.len t

/-- Without `z` there is nothing to refuse (R99). -/
@[simp] theorem zeroingCheck_false (k : BitVec 3) : zeroingCheck k false = none := by simp [zeroingCheck]

/-- Every form: its checks in order, then its body (R208). -/
theorem exec_eq_checks (i : Instr) (s : State) :
    exec i s = guardOn (modeCheck i s) (guardOn (formZeroing i) (guardOn (formVvvv i) (guardOn (formClass i s)
      (formBody i s)))) := by
  cases i <;> first | rfl | (simp only [formZeroing, maskOf, zeroingCheck_false, guardOn_none]; rfl)

theorem formZeroing_of_ok {i : Instr} (h : zeroingNoMask i = false) : formZeroing i = none := by
  unfold formZeroing
  unfold zeroingNoMask at h
  split at h <;> simp_all

theorem formVvvv_of_ok {i : Instr} (h : ∀ v, reservedVvvv i = some v → v = 15#4) : formVvvv i = none := by
  unfold formVvvv
  split <;> simp_all

theorem formClass_of_ready {i : Instr} {s : State} (h : Ready s i) : formClass i s = none := classCheck_eq_none.mpr h

end Sys2Proof.Machine
end

