-- ==== Sys2Proof/Laws/Decode.lean ====
section
/-! SUPPORT. Laws/Decode.lean: taking apart the bytes the encoder puts together (R86 to R101), and the lengths of the
encoder's parts (R104). -/
namespace Sys2Proof

/-- The first byte tells the class (R104). -/
theorem decode_F2 (bs : List Byte) : decode (0xF2#8 :: bs) = decodeLegacy bs := by simp [decode]
theorem decode_C5 (bs : List Byte) : decode (0xC5#8 :: bs) = decodeVex2 bs := by simp [decode]
theorem decode_C4 (bs : List Byte) : decode (0xC4#8 :: bs) = decodeVex3 bs := by simp [decode]
theorem decode_62 (bs : List Byte) : decode (0x62#8 :: bs) = decodeEvex bs := by simp [decode]

/-- A register number is its extension bit and its low three bits (R101). -/
@[simp] theorem reg4_bit3_low3 (r : BitVec 4) : reg4 (bit3 r) (low3 r) = r := by revert r; decide

@[simp] theorem reg4_getLsbD_low3 (r : BitVec 4) : reg4 (r.getLsbD 3) (low3 r) = r := by revert r; decide

/-- An EVEX register number is its two extension bits and its low three bits (R101). -/
@[simp] theorem reg5_bits_low3 (r : BitVec 5) : reg5 (bit4 r) (bit3 r) (low3 r) = r := by revert r; decide

/-- An EVEX `vvvv` register number from its stored fields (R101). -/
@[simp] theorem vvvv5_bits (r : BitVec 5) : BitVec.ofBool (bit4 r) ++ r.extractLsb' 0 4 = r := by revert r; decide

theorem low3_reg4 (x : Bool) (r : BitVec 3) : low3 (reg4 x r) = r := by revert x r; decide

theorem getLsbD_reg4 (x : Bool) (r : BitVec 3) : (reg4 x r).getLsbD 3 = x := by revert x r; decide

/-- Without its extension bit a register number is its low three bits (R87, R94). -/
theorem reg4_false_low3 {r : BitVec 4} (h : bit3 r = false) : reg4 false (low3 r) = r := by
  rw [← h]; exact reg4_bit3_low3 r

/-- The fields of a ModRM byte are those it was made of (R86). -/
@[simp] theorem modRMOf_modRMByte (m : BitVec 2) (reg rm : BitVec 3) : modRMOf (modRMByte m reg rm) = ⟨m, reg, rm⟩ := by
  revert m reg rm; decide

/-- The fields of a SIB byte are those it was made of (R89). -/
@[simp] theorem sibOf_sibByte (s : BitVec 2) (i b : BitVec 3) : sibOf (sibByte s i b) = ⟨s, i, b⟩ := by
  revert s i b; decide

/-- A disp32 is read as it was written (R90). -/
@[simp] theorem decodeDisp32_bytes (v : BitVec 32) (bs : List Byte) :
    decodeDisp32 (disp32Bytes v ++ bs) = .ok (v, bs) := by
  have h : v.extractLsb' 24 8 ++ v.extractLsb' 16 8 ++ v.extractLsb' 8 8 ++ v.extractLsb' 0 8 = v := by
    apply BitVec.eq_of_getLsbD_eq
    intro j hj
    simp only [BitVec.getLsbD_append, BitVec.getLsbD_extractLsb']
    interval_cases j <;> rfl
  simp [disp32Bytes, decodeDisp32, h]

/-- A displacement is read as it was written (R90). -/
@[simp] theorem decodeDisp_bytes (d : Disp) (bs : List Byte) :
    decodeDisp d.modField (d.bytes ++ bs) = .ok (d, bs) := by
  cases d <;> simp [decodeDisp, Disp.modField, Disp.bytes]

/-- The index a SIB byte was made for (R90). -/
theorem indexOf_sibFor (i : Option Index) (base : BitVec 3) (x : Bool) (hi : indexOk i = true)
    (hx : x = (match i with | none => false | some ix => ix.reg.getLsbD 3)) :
    indexOf x (sibOf (sibFor i base)) = i := by
  cases i with
  | none => subst hx; simp [sibFor, indexOf]; decide
  | some ix =>
    subst hx
    have h : ix.reg ≠ 4#4 := by simpa [indexOk] using hi
    simp only [sibFor, indexOf, sibOf_sibByte, reg4_getLsbD_low3, h, if_false]

/-- The base field a SIB byte was made for (R89). -/
@[simp] theorem sibOf_sibFor_base (i : Option Index) (base : BitVec 3) : (sibOf (sibFor i base)).base = base := by
  cases i <;> simp [sibFor]

/-- A disp32 has four bytes, a displacement as many as `Disp.len` says (R104). -/
@[simp] theorem disp32Bytes_length (v : BitVec 32) : (disp32Bytes v).length = 4 := rfl

@[simp] theorem Disp.bytes_length (d : Disp) : d.bytes.length = d.len := by cases d <;> rfl

@[simp] theorem MemOp.bytes_length (reg : BitVec 3) (m : MemOp) : (m.bytes reg).length = 1 + m.len := by
  cases m <;> simp [MemOp.bytes, MemOp.len] <;> omega

@[simp] theorem legacyHead_length (rex r x b : Bool) : (legacyHead rex r x b).length = 2 + rex.toNat := by
  cases rex <;> rfl

@[simp] theorem vexHead_length (vex3 r x b : Bool) (v : BitVec 4) : (vexHead vex3 r x b v).length = 2 + vex3.toNat := by
  cases vex3 <;> rfl

@[simp] theorem evexHead_length (e : Evex) : (evexHead e).length = 4 := rfl

theorem Disp.len_le (d : Disp) : d.len ≤ 4 := by cases d <;> simp [Disp.len]

theorem MemOp.len_le (m : MemOp) : m.len ≤ 5 := by
  cases m with
  | base b d => have := d.len_le; simp only [MemOp.len]; omega
  | ripRel v => simp [MemOp.len]
  | sib b i d => have := d.len_le; simp only [MemOp.len]; omega
  | sibNoBase i v => simp [MemOp.len]

end Sys2Proof
end

