-- ==== Sys2Proof/Laws/PerInstr.lean ====
section
/-! SUPPORT. Laws/PerInstr.lean: the statements made of each form as syntax, one lemma per constructor of Instr. -/
namespace Sys2Proof.Laws.EncodedLength

/-- The encoder writes exactly `len` bytes, at least 4 and at most 11 (R104). -/
def Statement (i : Instr) : Prop := (encode i).length = i.len ∧ 4 ≤ i.len ∧ i.len ≤ 11

theorem l10r (rex : Bool) (d src : BitVec 4) : Statement (.l10r rex d src) := by
  cases rex <;> simp [Statement, encode, Instr.len]

theorem l10m (rex : Bool) (d : BitVec 4) (m : MemOp) : Statement (.l10m rex d m) := by
  have := m.len_le
  cases rex <;> simp [Statement, encode, Instr.len] <;> omega

theorem l11r (rex : Bool) (d src : BitVec 4) : Statement (.l11r rex d src) := by
  cases rex <;> simp [Statement, encode, Instr.len]

theorem l11m (rex : Bool) (m : MemOp) (src : BitVec 4) : Statement (.l11m rex m src) := by
  have := m.len_le
  cases rex <;> simp [Statement, encode, Instr.len] <;> omega

theorem v10r (vex3 : Bool) (d s1 s2 : BitVec 4) : Statement (.v10r vex3 d s1 s2) := by
  cases vex3 <;> simp [Statement, encode, Instr.len]

theorem v10m (vex3 : Bool) (vvvv d : BitVec 4) (m : MemOp) : Statement (.v10m vex3 vvvv d m) := by
  have := m.len_le
  cases vex3 <;> simp [Statement, encode, Instr.len] <;> omega

theorem v11r (vex3 : Bool) (d s1 s2 : BitVec 4) : Statement (.v11r vex3 d s1 s2) := by
  cases vex3 <;> simp [Statement, encode, Instr.len]

theorem v11m (vex3 : Bool) (vvvv : BitVec 4) (m : MemOp) (src : BitVec 4) : Statement (.v11m vex3 vvvv m src) := by
  have := m.len_le
  cases vex3 <;> simp [Statement, encode, Instr.len] <;> omega

theorem e10r (k : BitVec 3) (z : Bool) (d s1 s2 : BitVec 5) : Statement (.e10r k z d s1 s2) := by
  simp [Statement, encode, Instr.len]

theorem e10m (k : BitVec 3) (z : Bool) (vvvv : BitVec 4) (d : BitVec 5) (m : MemOp) :
    Statement (.e10m k z vvvv d m) := by
  have := m.len_le
  simp [Statement, encode, Instr.len]; omega

theorem e11r (k : BitVec 3) (z : Bool) (d s1 s2 : BitVec 5) : Statement (.e11r k z d s1 s2) := by
  simp [Statement, encode, Instr.len]

theorem e11m (k : BitVec 3) (vvvv : BitVec 4) (m : MemOp) (src : BitVec 5) : Statement (.e11m k vvvv m src) := by
  have := m.len_le
  simp [Statement, encode, Instr.len]; omega

end Sys2Proof.Laws.EncodedLength
end

