-- ==== Sys2Proof/Laws/Step.lean ====
section
/-! SUPPORT. Laws/Step.lean: once, what a step can do (R27, R63, R93), and what placing an instruction does to the program
text. -/
namespace Sys2Proof.Machine

/-- Bytes the text covers are those from its base up to its end (R63). -/
theorem covers_iff {t : TextRange} {a n : Nat} :
    t.covers a n = true ↔ t.base.toNat ≤ a ∧ a + n ≤ t.base.toNat + t.len := by
  simp [TextRange.covers]

/-- The text check passes where the instruction lies in the text (R63). -/
theorem textCheck_eq_none {s : State} {len : Nat} : textCheck s len = none ↔ s.text.covers s.rip.toNat len = true := by
  simp [textCheck]

theorem textCheck_of_outside {s : State} {len : Nat} (h : s.text.covers s.rip.toNat len = false) :
    textCheck s len = some (.refuse .outsideText) := by
  simp [textCheck, h]

/-- An instruction just placed lies in the text (R63). -/
@[simp] theorem placed_covers (t : TextRange) (a : Addr) (n : Nat) : (t.placed a n).covers a.toNat n = true := by
  unfold TextRange.placed
  split
  · assumption
  · simp [TextRange.covers]

/-- A step that completes is one, in 64-bit mode, of the form its bytes decode to, which lies in the program text. -/
theorem step_next {s t : State} :
    step s = .next t ↔
      s.mode = .mode64 ∧ ∃ i rest, decode (fetchBytes s) = .ok (i, rest) ∧ s.text.covers s.rip.toNat i.len = true ∧
        exec i s = .next t := by
  unfold step
  split
  · simp_all
  · split
    · simp_all
    · simp_all [guardOn_next, textCheck_eq_none]

end Sys2Proof.Machine
end

