-- ==== Sys2Proof/Tests/Slice0.lean ====
section
/-! SUPPORT. Tests/Slice0.lean: the model's own tests. Expected values are those of spec/95_test_vectors.md (its number
stands in each comment) or are read off the rule cited; then, for every obligation with hypotheses, a witness of them. -/
namespace Sys2Proof.Tests

open Sys2Proof.Machine

-- One theorem at a time: tests that wait on the kernel side by side would take a thread each.
set_option Elab.async false

/-! ### Well-formedness: an ill-formed term for each check -/

/-- No REX byte, register 8 (R87). -/
theorem test_wf_legacy_register : Instr.wf (.l10r false 7#4 7#4) = true ∧ Instr.wf (.l10r false 8#4 7#4) = false ∧
    Instr.wf (.l11r false 7#4 8#4) = false ∧ Instr.wf (.l10r true 8#4 15#4) = true := by decide

/-- No REX byte with a base, an index or a register numbered 8 or above (R87). -/
theorem test_wf_legacy_memory : Instr.wf (.l10m false 0#4 (.base 8#4 .d0)) = false ∧
    Instr.wf (.l10m false 0#4 (.sib 0#4 (some ⟨9#4, 0#2⟩) .d0)) = false ∧
    Instr.wf (.l11m false (.base 0#4 .d0) 8#4) = false ∧ Instr.wf (.l11m false (.base 0#4 .d0) 7#4) = true := by decide

/-- The 2-byte VEX prefix with ModRM:r/m, base or index numbered 8 or above (R94). -/
theorem test_wf_vex : Instr.wf (.v10r false 15#4 15#4 7#4) = true ∧ Instr.wf (.v10r false 1#4 2#4 8#4) = false ∧
    Instr.wf (.v11r false 8#4 2#4 1#4) = false ∧ Instr.wf (.v10m false 15#4 1#4 (.base 8#4 .d0)) = false ∧
    Instr.wf (.v11m false 15#4 (.sibNoBase (some ⟨8#4, 0#2⟩) 0#32) 1#4) = false := by decide

/-- Zeroing without a writemask (R99). -/
theorem test_wf_evex_zeroing : Instr.wf (.e10r 0#3 true 1#5 2#5 3#5) = false ∧
    Instr.wf (.e11r 0#3 true 1#5 2#5 3#5) = false ∧ Instr.wf (.e10m 0#3 true 15#4 1#5 (.base 0#4 .d0)) = false ∧
    Instr.wf (.e10r 1#3 true 1#5 2#5 3#5) = true := by decide

/-- What ModRM and SIB cannot write: base 4 or 12 without SIB, base 5 or 13 with `mod = 00b`, index 4 (R90). -/
theorem test_wf_memory_operand : MemOp.wf (.base 4#4 .d0) = false ∧ MemOp.wf (.base 12#4 (.d8 0#8)) = false ∧
    MemOp.wf (.base 5#4 .d0) = false ∧ MemOp.wf (.base 13#4 .d0) = false ∧ MemOp.wf (.base 5#4 (.d8 0#8)) = true ∧
    MemOp.wf (.sib 5#4 none .d0) = false ∧ MemOp.wf (.sib 0#4 (some ⟨4#4, 1#2⟩) .d0) = false ∧
    MemOp.wf (.sibNoBase (some ⟨4#4, 0#2⟩) 0#32) = false ∧ MemOp.wf (.sib 4#4 none .d0) = true := by decide

/-! ### Decoding: words written out bit by bit from R86 to R101 -/

/-- L-3, L-11, L-12 (R87, R88, R90). -/
theorem test_decode_legacy :
    decode [0xF2#8, 0b01000100#8, 0x0F#8, 0b00010000#8, 0b11000001#8] = .ok (.l10r true 8#4 1#4, []) ∧
    decode [0xF2#8, 0x0F#8, 0b00010000#8, 0b10001000#8, 0#8, 1#8, 0#8, 0#8] =
      .ok (.l10m false 1#4 (.base 0#4 (.d32 0x100#32)), []) ∧
    decode [0xF2#8, 0x0F#8, 0b00010000#8, 0b00000101#8, 0x10#8, 0#8, 0#8, 0#8] =
      .ok (.l10m false 0#4 (.ripRel 0x10#32), []) ∧
    decode [0xF2#8, 0x0F#8, 0b00010001#8, 0b11010001#8] = .ok (.l11r false 1#4 2#4, []) ∧
    decode [0xF2#8, 0x0F#8, 0b00010001#8, 0b00001000#8] = .ok (.l11m false (.base 0#4 .d0) 1#4, []) := by
  decide +kernel

/-- L-13, L-14, L-16, L-17, L-18 (R89, R90). -/
theorem test_decode_addressing :
    decode [0xF2#8, 0x0F#8, 0x10#8, 0b00000100#8, 0b00100100#8] = .ok (.l10m false 0#4 (.sib 4#4 none .d0), []) ∧
    decode [0xF2#8, 0x0F#8, 0x10#8, 0b00000100#8, 0b11001000#8] =
      .ok (.l10m false 0#4 (.sib 0#4 (some ⟨1#4, 3#2⟩) .d0), []) ∧
    decode [0xF2#8, 0b01000001#8, 0x0F#8, 0x10#8, 0b00000100#8, 0b00100100#8] =
      .ok (.l10m true 0#4 (.sib 12#4 none .d0), []) ∧
    decode [0xF2#8, 0x0F#8, 0x10#8, 0b00000100#8, 0b00100101#8, 0#8, 0x20#8, 0#8, 0#8] =
      .ok (.l10m false 0#4 (.sibNoBase none 0x2000#32), []) ∧
    decode [0xF2#8, 0x0F#8, 0x10#8, 0b01000101#8, 0#8] = .ok (.l10m false 0#4 (.base 5#4 (.d8 0#8)), []) := by
  decide +kernel

/-- V-1, V-8, V-9, V-10, V-11, V-14, V-16, V-17 (R94 to R96, R102). -/
theorem test_decode_vex :
    decode [0xC5#8, 0b11101011#8, 0x10#8, 0b11001011#8] = .ok (.v10r false 1#4 2#4 3#4, []) ∧
    decode [0xC4#8, 0b11100001#8, 0b11101011#8, 0x10#8, 0b11001011#8] = .ok (.v10r true 1#4 2#4 3#4, []) ∧
    decode [0xC4#8, 0b01000001#8, 0b00101011#8, 0x10#8, 0b11001011#8] = .ok (.v10r true 9#4 10#4 11#4, []) ∧
    decode [0xC5#8, 0b01101011#8, 0x10#8, 0b11001011#8] = .ok (.v10r false 9#4 2#4 3#4, []) ∧
    decode [0xC5#8, 0b11111011#8, 0x10#8, 0b00001000#8] = .ok (.v10m false 15#4 1#4 (.base 0#4 .d0), []) ∧
    decode [0xC5#8, 0b11101011#8, 0x10#8, 0b00001000#8] = .ok (.v10m false 13#4 1#4 (.base 0#4 .d0), []) ∧
    decode [0xC5#8, 0b11101011#8, 0x11#8, 0b11011001#8] = .ok (.v11r false 1#4 2#4 3#4, []) ∧
    decode [0xC5#8, 0b11111011#8, 0x11#8, 0b00001000#8] = .ok (.v11m false 15#4 (.base 0#4 .d0) 1#4, []) := by
  decide +kernel

/-- E-1, E-10, E-11, E-16, E-21, E-24, E-27, E-34 (R97, R98, R101). -/
theorem test_decode_evex :
    decode [0x62#8, 0b11110001#8, 0b11101111#8, 0b10001001#8, 0x10#8, 0b11001011#8] =
      .ok (.e10r 1#3 true 1#5 2#5 3#5, []) ∧
    decode [0x62#8, 0b10100001#8, 0b11101111#8, 0b00000000#8, 0x10#8, 0b11001011#8] =
      .ok (.e10r 0#3 false 17#5 18#5 19#5, []) ∧
    decode [0x62#8, 0b11110001#8, 0b11101111#8, 0b01001000#8, 0x10#8, 0b11001011#8] =
      .ok (.e10r 0#3 false 1#5 2#5 3#5, []) ∧
    decode [0x62#8, 0b11110001#8, 0b11111111#8, 0b00001001#8, 0x10#8, 0b00001000#8] =
      .ok (.e10m 1#3 false 15#4 1#5 (.base 0#4 .d0), []) ∧
    decode [0x62#8, 0b01100001#8, 0b11111111#8, 0b00001000#8, 0x10#8, 0b00001000#8] =
      .ok (.e10m 0#3 false 15#4 25#5 (.base 0#4 .d0), []) ∧
    decode [0x62#8, 0b11110001#8, 0b11101111#8, 0b00001001#8, 0x11#8, 0b11011001#8] =
      .ok (.e11r 1#3 false 1#5 2#5 3#5, []) ∧
    decode [0x62#8, 0b01000001#8, 0b11111111#8, 0b00001000#8, 0x11#8, 0b01111111#8, 1#8] =
      .ok (.e11m 0#3 15#4 (.base 15#4 (.d8 1#8)) 31#5, []) := by decide +kernel

/-- E-8, E-12, E-13, E-14, E-26, E-32 and the reserved bits of P0 and P1 (R99). -/
theorem test_decode_evex_refused :
    decode [0x62#8, 0xF1#8, 0xEF#8, 0x88#8, 0x10#8, 0xCB#8] = .error .evexZeroingNoMask ∧
    decode [0x62#8, 0xF1#8, 0xEF#8, 0x68#8, 0x10#8, 0xCB#8] = .error .evexLength ∧
    decode [0x62#8, 0xF1#8, 0x6F#8, 0x08#8, 0x10#8, 0xCB#8] = .error .evexW0 ∧
    decode [0x62#8, 0xF1#8, 0xEF#8, 0x18#8, 0x10#8, 0xCB#8] = .error .evexBroadcast ∧
    decode [0x62#8, 0xF1#8, 0xFF#8, 0x01#8, 0x10#8, 0x08#8] = .error .evexVPrime ∧
    decode [0x62#8, 0xF1#8, 0xFF#8, 0x89#8, 0x11#8, 0x08#8] = .error .evexZeroingStore ∧
    decode [0x62#8, 0xF5#8, 0xEF#8, 0x08#8, 0x10#8, 0xCB#8] = .error .evexReservedBits ∧
    decode [0x62#8, 0xF1#8, 0xEB#8, 0x08#8, 0x10#8, 0xCB#8] = .error .evexReservedBits := by decide +kernel

/-- X-18, X-19 and the other prefixes of R108. -/
theorem test_decode_prefix_refused :
    decode [0xF0#8, 0xF2#8, 0x0F#8, 0x11#8, 0x08#8] = .error .lockPrefix ∧
    decode [0x66#8, 0xF2#8, 0x0F#8, 0x10#8, 0xCA#8] = .error .extraPrefix ∧
    decode [0xF2#8, 0x66#8, 0x0F#8, 0x10#8, 0xCA#8] = .error .extraPrefix ∧
    decode [0xF2#8, 0x64#8, 0x0F#8, 0x10#8, 0x08#8] = .error .segmentOverride ∧
    decode [0x67#8, 0xF2#8, 0x0F#8, 0x10#8, 0x08#8] = .error .addressSize ∧
    decode [0x40#8, 0xF2#8, 0x0F#8, 0x10#8, 0xCA#8] = .error .misplacedRex ∧
    decode [0xF2#8, 0xC5#8, 0xEB#8, 0x10#8, 0xCB#8] = .error .vexAfterPrefix := by decide +kernel

/-- Bytes of another instruction, and too few bytes. -/
theorem test_decode_other_refused :
    decode [0xA5#8] = .error .notThisInstruction ∧ decode [0xF2#8, 0x0F#8, 0x12#8, 0xC0#8] = .error .notThisInstruction ∧
    decode [0xC5#8, 0xEA#8, 0x10#8, 0xCB#8] = .error .notThisInstruction ∧
    decode [0xF2#8, 0x0F#8, 0x10#8] = .error .truncated := by decide +kernel

/-- The bytes of L-15, V-18 and E-34 are what the encoder writes for their decoded forms. -/
theorem test_encode :
    encode (.l10m true 0#4 (.sib 8#4 (some ⟨9#4, 3#2⟩) .d0)) = [0xF2#8, 0x43#8, 0x0F#8, 0x10#8, 0x04#8, 0xC8#8] ∧
    encode (.v11m false 15#4 (.base 0#4 (.d8 2#8)) 1#4) = [0xC5#8, 0xFB#8, 0x11#8, 0x48#8, 0x02#8] ∧
    encode (.e11m 0#3 15#4 (.base 15#4 (.d8 1#8)) 31#5) =
      [0x62#8, 0x41#8, 0xFF#8, 0x08#8, 0x11#8, 0x7F#8, 0x01#8] := by decide +kernel

/-! ### One step -/

/-- A register of `upper / hi / lo`, all six upper quadwords equal (spec/95, section 0). -/
def triple (upper hi lo : BitVec 64) : VCell := upper ++ upper ++ upper ++ upper ++ upper ++ upper ++ hi ++ lo

/-- Register `n` as the vectors' start state holds it. -/
def seed (s : State) (n : BitVec 5) : State :=
  s.setVslice n 0 (triple (0xCCCC000000000000#64 + n.setWidth 64) (0xBBBB000000000000#64 + n.setWidth 64)
    (0xAAAA000000000000#64 + n.setWidth 64))

/-- The start state of the vectors, as far as they use it: registers 0 to 3, `x[0] = 1000`, `rip = 0`. -/
def s0 : State :=
  seed (seed (seed (seed { State.reset with rip := 0#64, x := State.reset.x.set 0 0x1000#64 } 0#5) 1#5) 2#5) 3#5

/-- A state with a mask register set. -/
def withK (s : State) (j : BitVec 3) (v : BitVec 64) : State := { s with k := s.k.set j.toNat v j.isLt }

/-- A state with bytes in memory. -/
def withBytes (s : State) (a : Nat) (bs : List Byte) : State := s.setMem (s.mem.writeBytes a bs)

/-- The bytes the vectors call `B8`. -/
def b8 : List Byte := [0x88#8, 0x77#8, 0x66#8, 0x55#8, 0x44#8, 0x33#8, 0x22#8, 0x11#8]

/-- A state with a program of these bytes at `rip` (R63, R241). -/
def withProgram (s : State) (bs : List Byte) : State :=
  { withBytes s s.rip.toNat bs with text := ⟨s.rip, bs.length⟩ }

/-- One step on the bytes at `rip`, looked at through `f` where it completes. -/
def look {α : Type} (s : State) (bytes : List Byte) (f : State → α) : Option α :=
  match step (withProgram s bytes) with
  | .next t => some (f t)
  | _ => none

/-- One step on the bytes at `rip` that faults. -/
def faultOf (s : State) (bytes : List Byte) : Option Fault :=
  match step (withProgram s bytes) with
  | .fault e => some e
  | _ => none

/-- L-1. -/
theorem test_l10r : look s0 [0xF2#8, 0x0F#8, 0x10#8, 0xCA#8] (fun t => (t.vreg 1#5, t.rip)) =
    some (triple 0xCCCC000000000001#64 0xBBBB000000000001#64 0xAAAA000000000002#64, 4#64) := by decide +kernel

/-- L-5. -/
theorem test_l10m : look (withBytes s0 0x1000 b8) [0xF2#8, 0x0F#8, 0x10#8, 0x08#8] (fun t => (t.vreg 1#5, t.rip)) =
    some (triple 0xCCCC000000000001#64 0#64 0x1122334455667788#64, 4#64) := by decide +kernel

/-- L-12: an address relative to the next instruction. -/
theorem test_l10m_rip_relative :
    look (withBytes { s0 with rip := 0x400000#64 } 0x400018 b8) [0xF2#8, 0x0F#8, 0x10#8, 0x05#8, 0x10#8, 0#8, 0#8, 0#8]
      (fun t => (t.vreg 0#5, t.rip)) =
    some (triple 0xCCCC000000000000#64 0#64 0x1122334455667788#64, 0x400008#64) := by decide +kernel

/-- L-19. -/
theorem test_l11r : look s0 [0xF2#8, 0x0F#8, 0x11#8, 0xD1#8] (fun t => (t.vreg 1#5, t.rip)) =
    some (triple 0xCCCC000000000001#64 0xBBBB000000000001#64 0xAAAA000000000002#64, 4#64) := by decide +kernel

/-- L-20. -/
theorem test_l11m :
    look (withBytes s0 0xFF8 (List.replicate 24 0xEE#8)) [0xF2#8, 0x0F#8, 0x11#8, 0x08#8]
      (fun t => (t.mem.fetch 0xFFF 10, t.rip)) =
    some ([0xEE#8, 1#8, 0#8, 0#8, 0#8, 0#8, 0#8, 0xAA#8, 0xAA#8, 0xEE#8], 4#64) := by decide +kernel

/-- V-1. -/
theorem test_v10r : look s0 [0xC5#8, 0xEB#8, 0x10#8, 0xCB#8] (fun t => (t.vreg 1#5, t.rip)) =
    some (triple 0#64 0xBBBB000000000002#64 0xAAAA000000000003#64, 4#64) := by decide +kernel

/-- V-3: on one register the low 128 bits stay and the rest is cleared. -/
theorem test_v10r_self : look s0 [0xC5#8, 0xFB#8, 0x10#8, 0xC0#8] (fun t => t.vreg 0#5) =
    some (triple 0#64 0xBBBB000000000000#64 0xAAAA000000000000#64) := by decide +kernel

/-- V-11. -/
theorem test_v10m : look (withBytes s0 0x1000 b8) [0xC5#8, 0xFB#8, 0x10#8, 0x08#8] (fun t => (t.vreg 1#5, t.rip)) =
    some (triple 0#64 0#64 0x1122334455667788#64, 4#64) := by decide +kernel

/-- V-14. -/
theorem test_v10m_vvvv : faultOf s0 [0xC5#8, 0xEB#8, 0x10#8, 0x08#8] = some .ud := by decide +kernel

/-- V-16. -/
theorem test_v11r : look s0 [0xC5#8, 0xEB#8, 0x11#8, 0xD9#8] (fun t => (t.vreg 1#5, t.rip)) =
    some (triple 0#64 0xBBBB000000000002#64 0xAAAA000000000003#64, 4#64) := by decide +kernel

/-- V-18: a VEX disp8 is not scaled. -/
theorem test_v11m : look s0 [0xC5#8, 0xFB#8, 0x11#8, 0x48#8, 0x02#8] (fun t => (t.mem.fetch 0x1002 8, t.rip)) =
    some ([1#8, 0#8, 0#8, 0#8, 0#8, 0#8, 0xAA#8, 0xAA#8], 5#64) := by decide +kernel

/-- E-4: masked off and merging, the low quadword alone is kept. -/
theorem test_e10r_merging : look s0 [0x62#8, 0xF1#8, 0xEF#8, 0x09#8, 0x10#8, 0xCB#8] (fun t => (t.vreg 1#5, t.rip)) =
    some (triple 0#64 0xBBBB000000000002#64 0xAAAA000000000001#64, 6#64) := by decide +kernel

/-- E-10: registers above 15, named by `R'`, `V'` and `X`. -/
theorem test_e10r_high_registers :
    look (seed (seed s0 18#5) 19#5) [0x62#8, 0xA1#8, 0xEF#8, 0x00#8, 0x10#8, 0xCB#8] (fun t => t.vreg 17#5) =
    some (triple 0#64 0xBBBB000000000012#64 0xAAAA000000000013#64) := by decide +kernel

/-- E-17: masked off and merging, nothing is loaded and the bits above are cleared. -/
theorem test_e10m_off : look (withBytes s0 0x1000 b8) [0x62#8, 0xF1#8, 0xFF#8, 0x09#8, 0x10#8, 0x08#8]
    (fun t => (t.vreg 1#5, t.rip)) = some (triple 0#64 0#64 0xAAAA000000000001#64, 6#64) := by decide +kernel

/-- E-21: an EVEX disp8 is scaled by 8. -/
theorem test_e10m_scaled :
    look (withK (withBytes s0 0x1010 b8) 1#3 1#64) [0x62#8, 0xF1#8, 0xFF#8, 0x09#8, 0x10#8, 0x48#8, 0x02#8]
      (fun t => (t.vreg 1#5, t.rip)) = some (triple 0#64 0#64 0x1122334455667788#64, 7#64) := by decide +kernel

/-- E-29: masked off and zeroing. -/
theorem test_e11r_zeroing : look s0 [0x62#8, 0xF1#8, 0xEF#8, 0x89#8, 0x11#8, 0xD9#8] (fun t => (t.vreg 1#5, t.rip)) =
    some (triple 0#64 0xBBBB000000000002#64 0#64, 6#64) := by decide +kernel

/-- E-27 with `K[1] = FFFE` and `FFFF`: bit 0 alone is read (E-5, E-6). -/
theorem test_e11r_mask_bit :
    look (withK s0 1#3 0xFFFE#64) [0x62#8, 0xF1#8, 0xEF#8, 0x09#8, 0x11#8, 0xD9#8] (fun t => t.low 1#5) =
      some 0xAAAA000000000001#64 ∧
    look (withK s0 1#3 0xFFFF#64) [0x62#8, 0xF1#8, 0xEF#8, 0x09#8, 0x11#8, 0xD9#8] (fun t => t.low 1#5) =
      some 0xAAAA000000000003#64 := by decide +kernel

/-- E-33: `K[7]`, a value with bit 0 set. -/
theorem test_e11m : look (withK s0 7#3 3#64) [0x62#8, 0xF1#8, 0xFF#8, 0x0F#8, 0x11#8, 0x08#8]
    (fun t => (t.mem.fetch 0x1000 8, t.rip)) =
    some ([1#8, 0#8, 0#8, 0#8, 0#8, 0#8, 0xAA#8, 0xAA#8], 6#64) := by decide +kernel

/-- E-31: masked off, no byte is written. -/
theorem test_e11m_off : look (withBytes s0 0x1000 b8) [0x62#8, 0xF1#8, 0xFF#8, 0x09#8, 0x11#8, 0x08#8]
    (fun t => (t.mem.fetch 0x1000 8, t.rip)) = some (b8, 6#64) := by decide +kernel

/-- A state whose platform map answers every read of the page at 1000 so. -/
def mapped (s : State) (v : MemVerdict) : State := { s with cfg := { s.cfg with memMap := [⟨0x1000#64, 0x1FFF#64, .read, v⟩] } }

/-- X-1, X-3, X-4, X-7: `#UD` before `#NM` (R203, R208). -/
theorem test_class_faults :
    faultOf { s0 with cfg := { s0.cfg with hasSse2 := false } } [0xF2#8, 0x0F#8, 0x10#8, 0xCA#8] = some .ud ∧
    faultOf { s0 with ts := true } [0xF2#8, 0x0F#8, 0x10#8, 0xCA#8] = some .nm ∧
    faultOf { s0 with ts := true, osSse := false } [0xF2#8, 0x0F#8, 0x10#8, 0xCA#8] = some .ud ∧
    faultOf { s0 with ts := true } [0xC5#8, 0xEB#8, 0x10#8, 0x08#8] = some .ud := by decide +kernel

/-- X-8, X-10, X-11, X-13: MemCheck's fault before `#AC`, `#NM` before both (R57, R208). -/
theorem test_memory_faults :
    faultOf (mapped s0 (.pf 4#32 0#64)) [0xF2#8, 0x0F#8, 0x10#8, 0x08#8] = some (.pf 4#32 0x1000#64) ∧
    faultOf { s0 with acCheck := true } [0xF2#8, 0x0F#8, 0x10#8, 0x48#8, 0x03#8] = some .ac ∧
    faultOf { mapped s0 (.pf 4#32 0#64) with acCheck := true } [0xF2#8, 0x0F#8, 0x10#8, 0x48#8, 0x03#8] =
      some (.pf 4#32 0x1003#64) ∧
    faultOf { mapped s0 (.pf 4#32 0#64) with ts := true } [0xF2#8, 0x0F#8, 0x10#8, 0x08#8] = some .nm := by
  decide +kernel

/-- R55, R91: a non-canonical address raises `#SS` through RSP or RBP as base, `#GP` else; the last address is refused. -/
theorem test_address_space :
    memCheck s0 (segOf (.base 5#4 (.d8 0#8))) 0x0000800000000000#64 .read = some (.fault .ss) ∧
    memCheck s0 (segOf (.base 0#4 .d0)) 0x0000800000000000#64 .read = some (.fault .gp) ∧
    memCheck s0 .ds 0xFFFFFFFFFFFFFFF8#64 .read = none ∧
    memCheck { s0 with mode := .mode32 } .ds 0xFFFFFFF9#64 .read = some (.refuse .accessPastTop) := by decide +kernel

/-- X-20: in a 32-bit mode the byte layer is refused, the decoded form is not. -/
theorem test_mode32 : step { s0 with mode := .mode32 } = .refused .byteLayerIn32 ∧
    (match exec (.l10r false 1#4 2#4) { s0 with mode := .mode32 } with
      | .next t => some (t.low 1#5)
      | _ => none) = some 0xAAAA000000000002#64 := ⟨rfl, by decide +kernel⟩

/-! ### The words of spec/opcode_table.json -/

/-- The table writes the first byte leftmost, in the highest bits (notes/assumptions/13.md). -/
theorem test_table_words :
    decodeTableWord 32 0xF20F10C0 = some (.l10r false 0#4 0#4) ∧
    decodeTableWord 32 0xF20F1100 = some (.l11m false (.base 0#4 .d0) 0#4) ∧
    decodeTableWord 32 0xC50310C0 = some (.v10r false 8#4 15#4 0#4) ∧
    decodeTableWord 48 0x62F1FF081000 = some (.e10m 0#3 false 15#4 0#5 (.base 0#4 .d0)) ∧
    decodeTableWord 32 0xC0100FF2 = some (.l10r false 0#4 0#4) := by decide +kernel

/-- A table word placed in the reset state is what the next step runs. -/
theorem test_fetch_word :
    (match step (State.reset.withFetchWord 32 0xF20F10C1) with
      | .next t => some t.rip
      | _ => none) = some 0xFFFFFFF4#64 ∧
    (match step (State.reset.withFetchWord 32 0xC5031000) with
      | .fault e => some e
      | _ => none) = some .ud := by decide +kernel

/-- From reset with nothing placed the first step is refused: memory reads as zeros, no admitted encoding. -/
theorem test_reset_step :
    (match step State.reset with
      | .refused r => some r
      | _ => none) = some (.encoding .notThisInstruction) := by decide +kernel

/-- An instruction whose last byte lies outside the program text is not run, and a store onto its own bytes is refused
(R63). -/
theorem test_program_text :
    (match step { withProgram s0 [0xF2#8, 0x0F#8, 0x10#8, 0xCA#8] with text := ⟨0#64, 3⟩ } with
      | .refused r => some r
      | _ => none) = some .outsideText ∧
    (match step (withProgram { s0 with rip := 0x1000#64 } [0xF2#8, 0x0F#8, 0x11#8, 0x08#8]) with
      | .refused r => some r
      | _ => none) = some .storeIntoText := by decide +kernel

/-! ### Witnesses: for each obligation with hypotheses, a state and operands that meet them -/

/-- The next state of an outcome, or the state given. -/
def nextOr (o : Result) (s : State) : State :=
  match o with
  | .next t => t
  | _ => s

/-- Whether an outcome is a next state. -/
def completes (o : Result) : Bool :=
  match o with
  | .next _ => true
  | _ => false

theorem next_of_completes {o : Result} {s : State} (h : completes o = true) : o = .next (nextOr o s) := by
  cases o <;> simp_all [completes, nextOr]

/-- A state at the last address, where no form has room. -/
def sTop : State := { s0 with rip := 0xFFFFFFFFFFFFFFFF#64 }

/-- A state in a 32-bit mode, `rip` one form away from its top. -/
def s32 : State := { s0 with mode := .mode32, rip := 0xFFFFFFFB#64 }

/-- States that reject reads of the page at 1000, under each setting of `MASKED_OFF_FAULTS`. -/
def sReject (mf : MaskedOffFaults) : State :=
  { s0 with cfg := { s0.cfg with maskedOffFaults := mf, memMap := [⟨0x1000#64, 0x1FFF#64, .read, .gp⟩,
    ⟨0x1000#64, 0x1FFF#64, .write, .gp⟩] } }

/-- `m64` at `x[0]`. -/
def m0 : MemOp := .base 0#4 .d0

/-- Every form is Ready in the vectors' start state. -/
theorem ready_s0 (i : Instr) : Ready s0 i := by cases i <;> exact ⟨rfl, rfl, rfl⟩

theorem ready_s32 (i : Instr) : Ready s32 i := by cases i <;> exact ⟨rfl, rfl, rfl⟩

theorem witness_legacyRegisterMove :
    (HasForm s0 (.l10r true 15#4 0#4) ∧ Ready s0 (.l10r true 15#4 0#4) ∧ RipRoom s0 (.l10r true 15#4 0#4)) ∧
    (HasForm s32 (.l11r false 7#4 7#4) ∧ Ready s32 (.l11r false 7#4 7#4) ∧ RipRoom s32 (.l11r false 7#4 7#4)) :=
  ⟨⟨rfl, ready_s0 _, by unfold RipRoom; decide⟩, ⟨rfl, ready_s32 _, by unfold RipRoom; decide⟩⟩

theorem witness_legacyLoad :
    HasForm s0 (.l10m false 1#4 m0) ∧ Ready s0 (.l10m false 1#4 m0) ∧ RipRoom s0 (.l10m false 1#4 m0) ∧
    Admitted s0 (segOf m0) (effAddr s0 plainDisp (Instr.l10m false 1#4 m0).len m0) .read :=
  ⟨rfl, ready_s0 _, by unfold RipRoom; decide, by decide +kernel, fun h => by cases h⟩

theorem witness_legacyAndVexStore :
    (HasForm s0 (.l11m false m0 1#4) ∧ Ready s0 (.l11m false m0 1#4) ∧ RipRoom s0 (.l11m false m0 1#4) ∧
      Admitted s0 (segOf m0) (effAddr s0 plainDisp (Instr.l11m false m0 1#4).len m0) .write) ∧
    (HasForm s0 (.v11m true 15#4 m0 1#4) ∧ Ready s0 (.v11m true 15#4 m0 1#4) ∧ RipRoom s0 (.v11m true 15#4 m0 1#4) ∧
      Admitted s0 (segOf m0) (effAddr s0 plainDisp (Instr.v11m true 15#4 m0 1#4).len m0) .write) ∧
    s0.mem.wf = true :=
  ⟨⟨rfl, ready_s0 _, by unfold RipRoom; decide, by decide +kernel, fun h => by cases h⟩,
    ⟨rfl, ready_s0 _, by unfold RipRoom; decide, by decide +kernel, fun h => by cases h⟩, rfl⟩

theorem witness_vexRegisterMerge :
    (HasForm s0 (.v10r true 15#4 0#4 15#4) ∧ Ready s0 (.v10r true 15#4 0#4 15#4) ∧
      RipRoom s0 (.v10r true 15#4 0#4 15#4)) ∧
    (HasForm s32 (.v11r false 7#4 7#4 7#4) ∧ Ready s32 (.v11r false 7#4 7#4 7#4) ∧
      RipRoom s32 (.v11r false 7#4 7#4 7#4)) :=
  ⟨⟨rfl, ready_s0 _, by unfold RipRoom; decide⟩, ⟨rfl, ready_s32 _, by unfold RipRoom; decide⟩⟩

theorem witness_vexLoad :
    HasForm s0 (.v10m false 15#4 1#4 m0) ∧ Ready s0 (.v10m false 15#4 1#4 m0) ∧ RipRoom s0 (.v10m false 15#4 1#4 m0) ∧
    Admitted s0 (segOf m0) (effAddr s0 plainDisp (Instr.v10m false 15#4 1#4 m0).len m0) .read :=
  ⟨rfl, ready_s0 _, by unfold RipRoom; decide, by decide +kernel, fun h => by cases h⟩

/-- Mask off (merging, then zeroing) in `s0`, on without a mask. -/
theorem witness_evexRegisterMerge :
    (¬ (1#3 = 0#3 ∧ true = true) ∧ (s0.kreg 1#3).getLsbD 0 = false ∧ HasForm s0 (.e10r 1#3 true 31#5 0#5 31#5) ∧
      Ready s0 (.e10r 1#3 true 31#5 0#5 31#5) ∧ RipRoom s0 (.e10r 1#3 true 31#5 0#5 31#5)) ∧
    (¬ (7#3 = 0#3 ∧ false = true) ∧ (s0.kreg 7#3).getLsbD 0 = false ∧ HasForm s0 (.e11r 7#3 false 16#5 0#5 0#5) ∧
      Ready s0 (.e11r 7#3 false 16#5 0#5 0#5) ∧ RipRoom s0 (.e11r 7#3 false 16#5 0#5 0#5)) ∧
    (¬ (0#3 = 0#3 ∧ false = true) ∧ HasForm s0 (.e10r 0#3 false 1#5 1#5 1#5)) :=
  ⟨⟨by decide, by decide +kernel, rfl, ready_s0 _, by unfold RipRoom; decide⟩,
    ⟨by decide, by decide +kernel, rfl, ready_s0 _, by unfold RipRoom; decide⟩, by decide, rfl⟩

theorem witness_evexLoadMaskOn :
    (s0.kreg 0#3).getLsbD 0 = false ∧ ((withK s0 1#3 1#64).kreg 1#3).getLsbD 0 = true ∧
    HasForm s0 (.e10m 0#3 false 15#4 31#5 m0) ∧ Ready s0 (.e10m 0#3 false 15#4 31#5 m0) ∧
    RipRoom s0 (.e10m 0#3 false 15#4 31#5 m0) ∧
    Admitted s0 (segOf m0) (effAddr s0 tuple1Disp (Instr.e10m 0#3 false 15#4 31#5 m0).len m0) .read :=
  ⟨by decide +kernel, by decide +kernel, rfl, ready_s0 _, by unfold RipRoom; decide, by decide +kernel,
    fun h => by cases h⟩

/-- One state whose MemCheck admits the address, one that rejects it under `never`. -/
theorem witness_evexLoadMaskOff :
    ((s0.kreg 1#3).getLsbD 0 = false ∧
      probeCheck s0 (segOf m0) (effAddr s0 tuple1Disp (Instr.e10m 1#3 true 15#4 1#5 m0).len m0) .read = none ∧
      HasForm s0 (.e10m 1#3 true 15#4 1#5 m0) ∧ Ready s0 (.e10m 1#3 true 15#4 1#5 m0) ∧
      RipRoom s0 (.e10m 1#3 true 15#4 1#5 m0)) ∧
    ((sReject .never).cfg.maskedOffFaults = .never ∧ ((sReject .never).kreg 1#3).getLsbD 0 = false ∧
      Ready (sReject .never) (.e10m 1#3 true 15#4 1#5 m0) ∧ RipRoom (sReject .never) (.e10m 1#3 true 15#4 1#5 m0)) :=
  ⟨⟨by decide +kernel, by decide +kernel, rfl, ready_s0 _, by unfold RipRoom; decide⟩,
    rfl, by decide +kernel, ⟨rfl, rfl, rfl⟩, by unfold RipRoom; decide⟩

theorem witness_evexStoreMaskOn :
    HasForm s0 (.e11m 0#3 15#4 m0 31#5) ∧ Ready s0 (.e11m 0#3 15#4 m0 31#5) ∧ RipRoom s0 (.e11m 0#3 15#4 m0 31#5) ∧
    Admitted s0 (segOf m0) (effAddr s0 tuple1Disp (Instr.e11m 0#3 15#4 m0 31#5).len m0) .write :=
  ⟨rfl, ready_s0 _, by unfold RipRoom; decide, by decide +kernel, fun h => by cases h⟩

theorem witness_evexStoreMaskOff :
    (s0.kreg 7#3).getLsbD 0 = false ∧
    probeCheck s0 (segOf m0) (effAddr s0 tuple1Disp (Instr.e11m 7#3 15#4 m0 1#5).len m0) .write = none ∧
    HasForm s0 (.e11m 7#3 15#4 m0 1#5) ∧ Ready s0 (.e11m 7#3 15#4 m0 1#5) ∧ RipRoom s0 (.e11m 7#3 15#4 m0 1#5) :=
  ⟨by decide +kernel, by decide +kernel, rfl, ready_s0 _, by unfold RipRoom; decide⟩

/-- A masked-off store into the program text stores nothing and is not refused (R58, R63). -/
theorem test_maskedOff_store_text :
    memCheck { s0 with text := ⟨0x1000#64, 16⟩ } .ds 0x1000#64 .write = some (.refuse .storeIntoText) ∧
    probeCheck { s0 with text := ⟨0x1000#64, 16⟩ } .ds 0x1000#64 .write = none := by decide +kernel

/-- Both kinds of form, under `always` and under `either`. -/
theorem witness_maskedOffRejectedAddress :
    (∀ mf : MaskedOffFaults, ((sReject mf).kreg 1#3).getLsbD 0 = false ∧ (sReject mf).cfg.maskedOffFaults = mf ∧
      Ready (sReject mf) (.e10m 1#3 true 15#4 1#5 m0) ∧ RipRoom (sReject mf) (.e10m 1#3 true 15#4 1#5 m0)) ∧
    probeCheck (sReject .always) (segOf m0) (effAddr (sReject .always) tuple1Disp (Instr.e10m 1#3 true 15#4 1#5 m0).len m0)
      .read = some (.fault .gp) ∧
    probeCheck (sReject .either) (segOf m0) (effAddr (sReject .either) tuple1Disp (Instr.e11m 1#3 15#4 m0 1#5).len m0)
      .write = some (.fault .gp) :=
  ⟨fun mf => ⟨by cases mf <;> decide +kernel, rfl, ⟨rfl, rfl, rfl⟩, by cases mf <;> (unfold RipRoom; decide)⟩,
    by decide +kernel, by decide +kernel⟩

theorem witness_reservedVvvvFaults :
    (reservedVvvv (.v10m false 14#4 1#4 m0) = some 14#4 ∧ 14#4 ≠ 15#4 ∧ HasForm s0 (.v10m false 14#4 1#4 m0) ∧
      zeroingNoMask (.v10m false 14#4 1#4 m0) = false) ∧
    (reservedVvvv (.e11m 0#3 0#4 m0 1#5) = some 0#4 ∧ zeroingNoMask (.e11m 0#3 0#4 m0 1#5) = false) ∧
    Ready s0 (.v10r false 1#4 2#4 3#4) ∧ Ready s0 (.e11r 0#3 false 1#5 2#5 3#5) :=
  ⟨⟨rfl, by decide, rfl, rfl⟩, ⟨rfl, by decide⟩, ready_s0 _, ready_s0 _⟩

theorem witness_classChecks :
    (HasForm s0 (.v10r false 1#4 2#4 3#4) ∧ zeroingNoMask (.v10r false 1#4 2#4 3#4) = false) ∧
    { s0 with osAvx := false }.osClass (classOf (.v10r false 1#4 2#4 3#4)) = false ∧
    ({ s0 with ts := true }.hasClass (classOf (.v10m false 15#4 1#4 m0)) = true ∧
      { s0 with ts := true }.osClass (classOf (.v10m false 15#4 1#4 m0)) = true ∧ { s0 with ts := true }.ts = true ∧
      ∀ v, reservedVvvv (.v10m false 15#4 1#4 m0) = some v → v = 15#4) :=
  ⟨⟨rfl, rfl⟩, rfl, rfl, rfl, rfl, fun v h => by cases h; rfl⟩

/-- A rejected address, and a misaligned one under `AC_CHECK`. -/
theorem witness_memoryFaultOrder :
    (memOperand (.l10m false 1#4 m0) = some (m0, .read, plainDisp) ∧
      memCheck (sReject .never) (segOf m0) (effAddr (sReject .never) plainDisp (Instr.l10m false 1#4 m0).len m0) .read
        = some (.fault .gp) ∧ Ready (sReject .never) (.l10m false 1#4 m0) ∧
      active (sReject .never) (.l10m false 1#4 m0) = true) ∧
    (memOperand (.e11m 0#3 15#4 (.base 0#4 (.d32 7#32)) 1#5) = some (.base 0#4 (.d32 7#32), .write, tuple1Disp) ∧
      memCheck { s0 with acCheck := true } .ds 0x1007#64 .write = none ∧
      effAddr { s0 with acCheck := true } tuple1Disp 10 (.base 0#4 (.d32 7#32)) = 0x1007#64 ∧
      active s0 (.e11m 0#3 15#4 (.base 0#4 (.d32 7#32)) 1#5) = true) :=
  ⟨⟨rfl, by decide +kernel, ⟨rfl, rfl, rfl⟩, rfl⟩, rfl, by decide +kernel, by decide +kernel, rfl⟩

theorem witness_registerFormFaults :
    memOperand (.l10r false 1#4 2#4) = none ∧ exec (.l10r false 1#4 2#4) { s0 with ts := true } = .fault .nm :=
  ⟨rfl, rfl⟩

/-- A load, a store and a masked-off store that complete. -/
theorem witness_formFrame :
    (∃ t, exec (.l10m false 1#4 m0) s0 = .next t) ∧ (∃ t, exec (.l11m false m0 1#4) s0 = .next t) ∧
    (∃ t, exec (.e11m 1#3 15#4 m0 1#5) s0 = .next t) ∧ storeTarget s0 (.l11m false m0 1#4) = some 0x1000#64 ∧
    storeTarget s0 (.e11m 1#3 15#4 m0 1#5) = none :=
  ⟨⟨_, next_of_completes (s := s0) (by decide +kernel)⟩, ⟨_, next_of_completes (s := s0) (by decide +kernel)⟩,
    ⟨_, next_of_completes (s := s0) (by decide +kernel)⟩, by decide +kernel, by decide +kernel⟩

/-- The last form that has room in a 32-bit mode, and one in 64-bit mode. -/
theorem witness_nextInstruction :
    (∃ t, exec (.l10r false 1#4 2#4) s32 = .next t) ∧
    ∃ t, exec (.v11r true 1#4 2#4 3#4) { s0 with rip := 0xFFFFFFFFFFFFFFFA#64 } = .next t :=
  ⟨⟨_, next_of_completes (s := s0) (by decide +kernel)⟩, ⟨_, next_of_completes (s := s0) (by decide +kernel)⟩⟩

theorem witness_ripWrapRefused :
    ¬ RipRoom sTop (.e10r 0#3 false 1#5 2#5 3#5) ∧ memOperand (.e10r 0#3 false 1#5 2#5 3#5) = none ∧
    HasForm sTop (.e10r 0#3 false 1#5 2#5 3#5) ∧ zeroingNoMask (.e10r 0#3 false 1#5 2#5 3#5) = false ∧
    Ready sTop (.e10r 0#3 false 1#5 2#5 3#5) :=
  ⟨by unfold RipRoom; decide, rfl, rfl, rfl, ⟨rfl, rfl, rfl⟩⟩

theorem witness_zeroingWithoutMaskRefused :
    HasForm s0 (.e10m 0#3 true 15#4 1#5 m0) ∧ zeroingNoMask (.e10m 0#3 true 15#4 1#5 m0) = true := ⟨rfl, rfl⟩

theorem witness_selfMoves :
    (∃ t, exec (.v10r false 2#4 2#4 2#4) s0 = .next t) ∧ (∃ t, exec (.v11r true 15#4 15#4 15#4) s0 = .next t) ∧
    (∃ t, exec (.l10r true 15#4 15#4) s0 = .next t) ∧ (∃ t, exec (.l11r false 0#4 0#4) s0 = .next t) :=
  ⟨⟨_, next_of_completes (s := s0) (by decide +kernel)⟩, ⟨_, next_of_completes (s := s0) (by decide +kernel)⟩,
    ⟨_, next_of_completes (s := s0) (by decide +kernel)⟩, ⟨_, next_of_completes (s := s0) (by decide +kernel)⟩⟩

/-- A register pair; a load pair whose displacements differ in the byte stored but not in the address; a store pair. -/
theorem witness_unmaskedEvexIsVex :
    ((∃ t, exec (.e10r 0#3 false (xmm 15#4) (xmm 0#4) (xmm 3#4)) s0 = .next t) ∧
      ∃ t, exec (.v10r true 15#4 0#4 3#4) s0 = .next t) ∧
    (effAddr s0 tuple1Disp (Instr.e10m 0#3 false 15#4 (xmm 1#4) (.base 0#4 (.d8 1#8))).len (.base 0#4 (.d8 1#8)) =
        effAddr s0 plainDisp (Instr.v10m false 15#4 1#4 (.base 0#4 (.d8 8#8))).len (.base 0#4 (.d8 8#8)) ∧
      (∃ t, exec (.e10m 0#3 false 15#4 (xmm 1#4) (.base 0#4 (.d8 1#8))) s0 = .next t) ∧
      ∃ t, exec (.v10m false 15#4 1#4 (.base 0#4 (.d8 8#8))) s0 = .next t) ∧
    (∃ t, exec (.e11m 0#3 15#4 m0 (xmm 1#4)) s0 = .next t) ∧ ∃ t, exec (.v11m false 15#4 m0 1#4) s0 = .next t :=
  ⟨⟨⟨_, next_of_completes (s := s0) (by decide +kernel)⟩, ⟨_, next_of_completes (s := s0) (by decide +kernel)⟩⟩,
    ⟨by decide +kernel, ⟨_, next_of_completes (s := s0) (by decide +kernel)⟩,
      ⟨_, next_of_completes (s := s0) (by decide +kernel)⟩⟩,
    ⟨_, next_of_completes (s := s0) (by decide +kernel)⟩, ⟨_, next_of_completes (s := s0) (by decide +kernel)⟩⟩

/-- A masked register form and a masked load that complete; a mask file that differs in every bit but bit 0 of `K[1]`. -/
theorem witness_maskGovernsLowQuadword :
    (∃ t, exec (.e10r 1#3 false 31#5 0#5 31#5) s0 = .next t) ∧ (∃ t, exec (.e11r 7#3 true 1#5 1#5 1#5) s0 = .next t) ∧
    (∃ t, exec (.e10m 1#3 false 15#4 31#5 m0) s0 = .next t) ∧
    maskOf (.e10r 1#3 true 1#5 2#5 3#5) = some (1#3, true) ∧
    ({ s0 with k := Vector.replicate 8 0xFFFE#64 }.kreg 1#3).getLsbD 0 = (s0.kreg 1#3).getLsbD 0 :=
  ⟨⟨_, next_of_completes (s := s0) (by decide +kernel)⟩, ⟨_, next_of_completes (s := s0) (by decide +kernel)⟩,
    ⟨_, next_of_completes (s := s0) (by decide +kernel)⟩, rfl, by decide +kernel⟩

/-- A load and a store of each class, each with a next state. -/
theorem witness_loadsAndStoresByClass :
    memOperand (.l10m false 15#4 m0) = some (m0, .read, plainDisp) ∧ active s0 (.l10m false 15#4 m0) = true ∧
    (∃ t, exec (.l10m true 15#4 m0) s0 = .next t) ∧ (∃ t, exec (.v10m false 15#4 1#4 m0) s0 = .next t) ∧
    active s0 (.e10m 0#3 false 15#4 31#5 m0) = true ∧ (∃ t, exec (.e10m 0#3 false 15#4 31#5 m0) s0 = .next t) ∧
    (∃ t, exec (.v11m false 15#4 m0 1#4) s0 = .next t) ∧ memOperand (.l11m false m0 1#4) = some (m0, .write, plainDisp) :=
  ⟨rfl, rfl, ⟨_, next_of_completes (s := s0) (by decide +kernel)⟩, ⟨_, next_of_completes (s := s0) (by decide +kernel)⟩,
    rfl, ⟨_, next_of_completes (s := s0) (by decide +kernel)⟩, ⟨_, next_of_completes (s := s0) (by decide +kernel)⟩, rfl⟩

/-- A form that completes, and one that faults. -/
theorem witness_noValueRaisesException :
    (∃ t, exec (.v10r false 1#4 2#4 3#4) s0 = .next t) ∧ exec (.v10r false 1#4 2#4 3#4) { s0 with ts := true } = .fault .nm :=
  ⟨⟨_, next_of_completes (s := s0) (by decide +kernel)⟩, rfl⟩

/-- A form without a mask field and one that selects no mask. -/
theorem witness_unmaskedFormsIgnoreOpmasks :
    (∀ k z, maskOf (.v10r false 1#4 2#4 3#4) = some (k, z) → k = 0#3) ∧
    (∀ k z, maskOf (.e11m 0#3 15#4 m0 1#5) = some (k, z) → k = 0#3) ∧ ∃ t, exec (.e11m 0#3 15#4 m0 1#5) s0 = .next t :=
  ⟨fun _ _ h => (by cases h), fun _ _ h => (by cases h; rfl), ⟨_, next_of_completes (s := s0) (by decide +kernel)⟩⟩

/-- A load at 1000 and two memories that differ at 1008, the first byte past those it reads. -/
theorem witness_onlyEightBytesRead :
    (∀ m scale, memOperand (.l10m false 1#4 m0) = some (m, .read, scale) → ∀ j, j < 8 →
      Memory.read [(0x1008, 1#8)] ((effAddr s0 scale (Instr.l10m false 1#4 m0).len m).toNat + j) =
        s0.mem.read ((effAddr s0 scale (Instr.l10m false 1#4 m0).len m).toNat + j)) ∧
    (∀ m scale, memOperand (.l10m false 1#4 m0) ≠ some (m, .write, scale)) ∧
    Memory.read [(0x1008, 1#8)] 0x1008 ≠ s0.mem.read 0x1008 :=
  ⟨fun _ _ h => (by cases h; decide +kernel), fun _ _ h => (by cases h), by decide +kernel⟩

theorem witness_registerFormsModeIndependent :
    memOperand (.v10r false 7#4 7#4 7#4) = none ∧ nameableIn32 (.v10r false 7#4 7#4 7#4) = true ∧ s0.mode = .mode64 ∧
    s0.rip.toNat + (Instr.v10r false 7#4 7#4 7#4).len < 2 ^ 32 := ⟨rfl, by decide, rfl, by decide⟩

theorem witness_unnameableFormsRefusedIn32 :
    s32.mode = .mode32 ∧ nameableIn32 (.e10r 0#3 false 8#5 0#5 0#5) = false ∧ nameableIn32 (.l10r true 0#4 0#4) = false :=
  ⟨rfl, by decide, by decide⟩

/-- A legacy store, then an EVEX load of the same place. -/
theorem witness_storeThenLoad :
    s0.mem.wf = true ∧ memOperand (.l11m false m0 1#4) = some (m0, .write, plainDisp) ∧
    memOperand (.e10m 0#3 false 15#4 2#5 m0) = some (m0, .read, tuple1Disp) ∧
    destOf (.e10m 0#3 false 15#4 2#5 m0) = some 2#5 ∧ active s0 (.l11m false m0 1#4) = true ∧
    ∃ t, exec (.l11m false m0 1#4) s0 = .next t ∧ active t (.e10m 0#3 false 15#4 2#5 m0) = true ∧
      effAddr s0 plainDisp (Instr.l11m false m0 1#4).len m0 =
        effAddr t tuple1Disp (Instr.e10m 0#3 false 15#4 2#5 m0).len m0 ∧
      ∃ u, exec (.e10m 0#3 false 15#4 2#5 m0) t = .next u :=
  ⟨rfl, rfl, rfl, rfl, rfl, _, next_of_completes (s := s0) (by decide +kernel), rfl, by decide +kernel,
    ⟨_, next_of_completes (s := s0) (by decide +kernel)⟩⟩

/-- The first address too high for 8 bytes, in each mode; an address whose bits 47 and 63 differ. -/
theorem witness_addressSpaceChecks :
    2 ^ s0.mode.addrWidth ≤ (0xFFFFFFFFFFFFFFF9#64).toNat + 7 ∧ 2 ^ s32.mode.addrWidth ≤ (0xFFFFFFF9#64).toNat + 7 ∧
    s0.mode = .mode64 ∧ (0x0000800000000000#64).getLsbD 47 ≠ (0x0000800000000000#64).getLsbD 63 := by decide +kernel

/-- A state with a store placed at `rip` and its own bytes declared the program text. -/
def sText : State :=
  withProgram { s0 with rip := 0x2000#64 } [0xF2#8, 0x0F#8, 0x11#8, 0x08#8]

theorem witness_programTextImmutable :
    (∃ t, step sText = .next t) ∧ sText.text.base.toNat ≤ 0x2003 ∧ 0x2003 < sText.text.base.toNat + sText.text.len :=
  ⟨⟨_, next_of_completes (s := s0) (by decide +kernel)⟩, by decide +kernel, by decide +kernel⟩

/-- A store whose eight bytes meet the text in one byte, at each of its ends. -/
theorem witness_storeIntoTextRefused :
    memOperand (.l11m false m0 1#4) = some (m0, .write, plainDisp) ∧
    effAddr s0 plainDisp (Instr.l11m false m0 1#4).len m0 = 0x1000#64 ∧ active s0 (.l11m false m0 1#4) = true ∧
    ((0x1000#64).toNat ≤ 0x1007 ∧ 0x1007 < (0x1000#64).toNat + 8 ∧ (0x1007#64).toNat ≤ 0x1007 ∧
      0x1007 < (0x1007#64).toNat + 1) ∧
    ((0x1000#64).toNat ≤ 0x1000 ∧ (0xFF0#64).toNat ≤ 0x1000 ∧ 0x1000 < (0xFF0#64).toNat + 17) ∧
    HasForm s0 (.l11m false m0 1#4) ∧ Ready s0 (.l11m false m0 1#4) ∧
    (canonical 0x1000#64 = true ∧ canonical (0x1000#64 + 7#64) = true) ∧
    lookupRule s0.cfg.memMap 0x1000#64 .write = .admits ∧ (0x1000#64).toNat + 7 < 2 ^ s0.mode.addrWidth :=
  ⟨rfl, by decide +kernel, rfl, by decide, by decide, rfl, ready_s0 _, by decide, rfl, by decide +kernel⟩

theorem witness_effectiveAddresses : s0.mode = .mode64 ∧ s32.mode = .mode32 := ⟨rfl, rfl⟩

theorem witness_loadsAreLittleEndian : (7 : Nat) < 8 := by decide

theorem witness_decodeEncodeRoundTrip :
    Instr.wf (.e10m 7#3 true 15#4 31#5 (.sib 15#4 (some ⟨12#4, 3#2⟩) (.d32 0x80000000#32))) = true ∧
    Instr.wf (.l10m true 15#4 (.sibNoBase none 0#32)) = true ∧ Instr.wf (.v11m true 0#4 (.ripRel 0#32) 15#4) = true := by
  decide

theorem witness_decodedFormsAreWellFormed :
    decode [0xC5#8, 0xEB#8, 0x10#8, 0xCB#8, 0x90#8] = .ok (.v10r false 1#4 2#4 3#4, [0x90#8]) := by decide +kernel

theorem witness_ignoredVexFields : (0#2 : BitVec 2) ≠ 3#2 ∧ (2#2 : BitVec 2) ≠ 3#2 := by decide

/-- One byte string for each of the eight settings. -/
theorem witness_evexSettingsRefused :
    (0x6F#8).getLsbD 7 = false ∧ (0x68#8).extractLsb' 5 2 = 3#2 ∧ (0x18#8).getLsbD 4 = true ∧
    (0xF5#8).extractLsb' 2 2 ≠ 0#2 ∧ (0xEB#8).getLsbD 2 = false ∧
    ((0x88#8).getLsbD 7 = true ∧ (0x88#8).extractLsb' 0 3 = 0#3) ∧
    ((0x89#8).getLsbD 7 = true ∧ (0x08#8).extractLsb' 6 2 ≠ 3#2) ∧
    ((0x01#8).getLsbD 3 = false ∧ (0x08#8).extractLsb' 6 2 ≠ 3#2) := by decide

theorem witness_otherPrefixesRefused :
    (0xF0#8 ≠ 0xF2#8 ∧ 0xF0#8 ≠ 0xC5#8 ∧ 0xF0#8 ≠ 0xC4#8 ∧ 0xF0#8 ≠ 0x62#8) ∧
    (0x66#8 ≠ 0x0F#8 ∧ (0x66#8).extractLsb' 4 4 ≠ 4#4) ∧ (0x4F#8).extractLsb' 4 4 = 4#4 ∧ 0x40#8 ≠ 0x0F#8 := by decide

theorem witness_registerFormsDecode : (2#2 : BitVec 2) ≠ 3#2 ∧ ((0#3 : BitVec 3) ≠ 0#3 ∨ (0#1 : BitVec 1) = 0#1) := by
  decide

theorem witness_addressingFormsDecode :
    (0#3 : BitVec 3) ≠ 4#3 ∧ (7#3 : BitVec 3) ≠ 5#3 ∧ ((0#2 : BitVec 2) ≠ 0#2 ∨ (4#3 : BitVec 3) ≠ 5#3) := by decide

theorem witness_stepRunsDecodedForm :
    sText.mode = .mode64 ∧ decode (fetchBytes sText) = .ok (.l11m false m0 1#4, List.replicate 11 0#8) ∧
    sText.text.base.toNat ≤ sText.rip.toNat ∧
    sText.rip.toNat + (Instr.l11m false m0 1#4).len ≤ sText.text.base.toNat + sText.text.len := by
  decide +kernel

theorem witness_stepRunsEncodedBytes :
    sText.mode = .mode64 ∧ Instr.wf (.l11m false m0 1#4) = true ∧
    sText.rip.toNat + (Instr.l11m false m0 1#4).len ≤ 2 ^ 64 ∧
    sText.text.base.toNat ≤ sText.rip.toNat ∧
    sText.rip.toNat + (Instr.l11m false m0 1#4).len ≤ sText.text.base.toNat + sText.text.len ∧
    ∀ j (h : j < (encode (.l11m false m0 1#4)).length),
      sText.mem.read (sText.rip.toNat + j) = (encode (.l11m false m0 1#4))[j] :=
  ⟨rfl, by decide, by decide, by decide +kernel, by decide +kernel, by decide +kernel⟩

/-- A 32-bit mode, no admitted encoding, and an instruction before and one past the text. -/
theorem witness_stepRefusals : s32.mode = .mode32 ∧ State.reset.mode = .mode64 ∧
    decode (fetchBytes State.reset) = .error .notThisInstruction ∧
    decode (fetchBytes { sText with text := ⟨0x2001#64, 3⟩ }) = .ok (.l11m false m0 1#4, List.replicate 11 0#8) ∧
    sText.rip.toNat < (0x2001#64).toNat ∧
    decode (fetchBytes { sText with text := ⟨0x2000#64, 3⟩ }) = .ok (.l11m false m0 1#4, List.replicate 11 0#8) ∧
    (0x2000#64).toNat + 3 < sText.rip.toNat + (Instr.l11m false m0 1#4).len := by decide +kernel

/-- A well-formed state whose step completes. -/
theorem witness_stepKeepsInvariant :
    Inv (State.reset.withFetchWord 32 0xF20F10C1) ∧ ∃ t, step (State.reset.withFetchWord 32 0xF20F10C1) = .next t :=
  ⟨⟨by decide +kernel, by decide, fun i j _ => by simp [State.vreg, State.withFetchWord, State.reset],
    fun h => (by cases h), fun k j _ => by simp [State.kreg, State.withFetchWord, State.reset], by decide⟩,
    ⟨_, next_of_completes (s := s0) (by decide +kernel)⟩⟩

end Sys2Proof.Tests
end

namespace Sys2Proof.Machine

/-! ### What a form that completes has written -/

/-- The state a form leaves before `rip` moves: one vector register written below `MAXVL`, the eight bytes of an admitted
store, or nothing; a masked-off form may have counted a choice beside it (R34, R58). -/
inductive Written (i : Instr) (s : State) : State → Prop where
  | vector (d : BitVec 5) (u : State) (dest : destOf i = some d) (control : ControlKept s u) (memory : u.mem = s.mem)
      (others : ∀ r, r ≠ d → u.vreg r = s.vreg r)
      (above : ∀ r j, s.cfg.maxVl.bits ≤ j → (u.vreg r).getLsbD j = (s.vreg r).getLsbD j) : Written i s u
  | quad (seg : Seg) (ea : Addr) (v : Quad) (target : storeTarget s i = some ea) (admitted : Admitted s seg ea .write) :
      Written i s (s.setMem (s.mem.writeQuad ea.toNat v))
  | nothing (u : State) (same : u = s ∨ u = s.countChoice) : Written i s u

section Writes

variable {i : Instr} {s : State} {d : BitVec 5}

theorem written_moveLow (src : BitVec 5) (hd : destOf i = some d) : Written i s (moveLow s d src) :=
  .vector d _ hd (by constructor <;> rfl) rfl (fun _ h => moveLow_ne s src h) fun r _ h => moveLow_above s d src r h

theorem written_loadLegacy (q : Quad) (hd : destOf i = some d) : Written i s (loadLegacy s d q) :=
  .vector d _ hd (by constructor <;> rfl) rfl (fun _ h => loadLegacy_ne s q h) fun r _ h => loadLegacy_above s d r q h

theorem written_mergeInto (a b : Quad) (hd : destOf i = some d) : Written i s (mergeInto s d a b) :=
  .vector d _ hd (by constructor <;> rfl) rfl (fun _ h => mergeInto_ne s a b h) fun r _ h => mergeInto_above s d r a b h

theorem written_loadClearing {u : State} (hu : u = s ∨ u = s.countChoice) (q : Quad) (hd : destOf i = some d) :
    Written i s (loadClearing u d q) := by
  rcases hu with rfl | rfl <;>
    exact .vector d _ hd (by constructor <;> rfl) rfl (fun _ h => loadClearing_ne _ q h)
      fun r _ h => loadClearing_above _ d r q h

/-- Past its checks a form that completes had room for `rip` and has written no more than `Written` says. -/
theorem formBody_next {t : State} (h : formBody i s = .next t) :
    RipRoom s i ∧ ∃ u, Written i s u ∧ t = u.setRip (s.rip + BitVec.ofNat 64 i.len) := by
  cases i with
  | l10r | l11r =>
    obtain ⟨room, rfl⟩ := retire_moveLow_next.mp h
    exact ⟨room, _, written_moveLow _ rfl, rfl⟩
  | v10r | v11r =>
    obtain ⟨room, rfl⟩ := retire_mergeInto_next.mp h
    exact ⟨room, _, written_mergeInto _ _ rfl, rfl⟩
  | e10r | e11r =>
    obtain ⟨room, rfl⟩ := retire_mergeMasked_next.mp h
    exact ⟨room, _, written_mergeInto _ _ rfl, rfl⟩
  | l10m =>
    simp only [formBody, memRead_next, retire_loadLegacy_next] at h
    obtain ⟨-, room, rfl⟩ := h
    exact ⟨room, _, written_loadLegacy _ rfl, rfl⟩
  | v10m =>
    simp only [formBody, memRead_next, retire_loadClearing_next] at h
    obtain ⟨-, room, rfl⟩ := h
    exact ⟨room, _, written_loadClearing (.inl rfl) _ rfl, rfl⟩
  | l11m | v11m =>
    obtain ⟨admitted, h⟩ := memWrite_next.mp h
    obtain ⟨room, rfl⟩ := retire_setMem_next.mp h
    exact ⟨room, _, .quad _ _ _ rfl admitted, rfl⟩
  | e10m k z vvvv d m =>
    simp only [formBody] at h
    split at h
    · obtain ⟨-, h⟩ := memRead_next.mp h
      obtain ⟨room, rfl⟩ := retire_loadClearing_next.mp h
      exact ⟨room, _, written_loadClearing (.inl rfl) _ rfl, rfl⟩
    · obtain ⟨room, u, hu, rfl⟩ := maskedOff_load_next h
      exact ⟨room, _, written_loadClearing hu _ rfl, rfl⟩
  | e11m k vvvv m src =>
    simp only [formBody] at h
    split at h
    · next on =>
      obtain ⟨admitted, h⟩ := memWrite_next.mp h
      obtain ⟨room, rfl⟩ := retire_setMem_next.mp h
      exact ⟨room, _, .quad _ _ _ (by simp [storeTarget, memOperand, active, maskOf, on]) admitted, rfl⟩
    · obtain ⟨room, u, hu, rfl⟩ := maskedOff_store_next h
      exact ⟨room, _, .nothing u hu, rfl⟩

end Writes

section Completes

variable {i : Instr} {s t : State}

/-- A form that completes is present and enabled and had room for `rip`; what it wrote is `Written`. -/
theorem exec_next (h : exec i s = .next t) :
    Ready s i ∧ RipRoom s i ∧ ∃ u, Written i s u ∧ t = u.setRip (s.rip + BitVec.ofNat 64 i.len) := by
  simp only [exec_eq_checks, guardOn_next] at h
  obtain ⟨-, -, -, ready, body⟩ := h
  exact ⟨classCheck_eq_none.mp ready, formBody_next body⟩

theorem Written.controlKept {u : State} (h : Written i s u) (r : Addr) : ControlKept s (u.setRip r) := by
  cases h with
  | vector d u dest control memory others above => exact { control with }
  | quad => exact controlKept_setMem
  | nothing u same =>
    rcases same with rfl | rfl
    · exact controlKept_setRip
    · exact controlKept_countChoice

/-- Only the destination register is written (R34). -/
theorem Written.vreg_ne {u : State} (h : Written i s u) {r : BitVec 5} (hr : destOf i ≠ some r) :
    u.vreg r = s.vreg r := by
  cases h with
  | vector d u dest control memory others above => exact others r fun e => hr (e ▸ dest)
  | quad => rfl
  | nothing u same => rcases same with rfl | rfl <;> rfl

/-- No bit at or above `MAXVL` is written (R20). -/
theorem Written.getLsbD_above {u : State} (h : Written i s u) (r : BitVec 5) {j : Nat} (hj : s.cfg.maxVl.bits ≤ j) :
    (u.vreg r).getLsbD j = (s.vreg r).getLsbD j := by
  cases h with
  | vector d u dest control memory others above => exact above r j hj
  | quad => rfl
  | nothing u same => rcases same with rfl | rfl <;> rfl

/-- Only the eight bytes an active store addresses are written (R34, R137). -/
theorem Written.read_outside {u : State} (h : Written i s u) {a : Nat}
    (ha : ∀ ea, storeTarget s i = some ea → a < ea.toNat ∨ ea.toNat + 8 ≤ a) : u.mem.read a = s.mem.read a := by
  cases h with
  | vector d u dest control memory others above => rw [memory]
  | quad seg ea v target admitted => exact Memory.read_writeQuad_outside v (ha ea target)
  | nothing u same => rcases same with rfl | rfl <;> rfl

/-- What a form writes leaves memory canonical (R32). -/
theorem Written.mem_wf {u : State} (h : Written i s u) (hw : s.mem.wf = true) : u.mem.wf = true := by
  cases h with
  | vector d u dest control memory others above => rw [memory]; exact hw
  | quad seg ea v target admitted => exact Memory.writeQuad_wf v hw (admitted_end admitted)
  | nothing u same => rcases same with rfl | rfl <;> exact hw

theorem exec_controlKept (h : exec i s = .next t) : ControlKept s t := by
  obtain ⟨-, -, u, written, rfl⟩ := exec_next h
  exact written.controlKept _

theorem xmm_lt_16 (d : BitVec 4) : (xmm d).toNat < 16 := by revert d; decide

/-- Only EVEX names a register above 15 (R22, R101). -/
theorem destOf_lt_16 {r : BitVec 5} (hc : classOf i ≠ .evex) (hd : destOf i = some r) : r.toNat < 16 := by
  cases i with
  | l10r | l10m | l11r | v10r | v10m | v11r =>
    cases hd
    exact xmm_lt_16 _
  | l11m | v11m | e11m => cases hd
  | e10r | e10m | e11r => exact absurd rfl hc

/-- A form that completes without AVX512F keeps registers 16 to 31 (R22). -/
theorem exec_keeps_upperFile (h : exec i s = .next t) (hf : s.cfg.hasAvx512f = false) {r : BitVec 5}
    (hr : 16 ≤ r.toNat) : t.vreg r = s.vreg r := by
  obtain ⟨⟨present, -, -⟩, -, u, written, rfl⟩ := exec_next h
  have hc : classOf i ≠ .evex := fun e => by simp [e, State.hasClass, hf] at present
  exact written.vreg_ne fun hd => absurd (destOf_lt_16 hc hd) (by omega)

/-- The next instruction's address lies in the address space (R27). -/
theorem RipRoom.next_lt (room : RipRoom s i) :
    (s.rip + BitVec.ofNat 64 i.len).toNat < 2 ^ s.mode.addrWidth := by
  have bound := addrWidth_le s.mode
  unfold RipRoom at room
  rw [BitVec.toNat_add, BitVec.toNat_ofNat, Nat.add_mod_mod, Nat.mod_eq_of_lt (by omega)]
  exact room

/-- Every form keeps the invariant, in both modes. -/
theorem exec_keeps_inv (inv : Inv s) (h : exec i s = .next t) : Inv t := by
  have upper := fun hf r hr => exec_keeps_upperFile h hf (r := r) hr
  obtain ⟨-, room, u, written, rfl⟩ := exec_next h
  have kept := written.controlKept (s.rip + BitVec.ofNat 64 i.len)
  exact {
    memory := written.mem_wf inv.memory
    consistent := kept.cfg ▸ inv.consistent
    vectorWidth := fun r j hj => by
      rw [kept.cfg] at hj
      exact (written.getLsbD_above r hj).trans (inv.vectorWidth r j hj)
    upperFile := fun hf r hr => by
      rw [kept.cfg] at hf
      exact (upper hf r hr).trans (inv.upperFile hf r hr)
    maskWidth := fun k j hj => by
      rw [kept.cfg] at hj
      rw [State.kreg, kept.k]
      exact inv.maskWidth k j hj
    rip := by
      rw [kept.mode]
      exact room.next_lt }

end Completes

/-- Settles O50: a step that completes is a form's, and every form keeps the invariant. -/
theorem stepKeepsInvariant : Obligations.StepKeepsInvariant := by
  intro s t inv h
  obtain ⟨-, i, -, -, -, run⟩ := step_next.mp h
  exact exec_keeps_inv inv run

/-- Settles O19, from what a completing form has written. -/
theorem formFrame : Obligations.FormFrame := by
  intro i s t h
  obtain ⟨-, -, u, written, rfl⟩ := exec_next h
  exact ⟨written.controlKept _, fun _ hr => written.vreg_ne hr, fun _ ha => written.read_outside ha⟩

/-! ### A form past its checks, and the refusals before and after it -/

/-- Past every check a form is its body (R208). -/
theorem exec_eq_formBody {i : Instr} {s : State} (form : HasForm s i) (zeroing : zeroingNoMask i = false)
    (vvvv : ∀ v, reservedVvvv i = some v → v = 15#4) (ready : Ready s i) : exec i s = formBody i s := by
  rw [exec_eq_checks, modeCheck_eq_none.mpr form, formZeroing_of_ok zeroing, formVvvv_of_ok vvvv,
    formClass_of_ready ready]
  rfl

/-- A register form reserves no `vvvv` field (R102). -/
theorem reservedVvvv_of_register {i : Instr} (h : memOperand i = none) : reservedVvvv i = none := by
  cases i with
  | l10r | l11r | v10r | v11r | e10r | e11r => rfl
  | l10m | l11m | v10m | v11m | e10m | e11m => cases h

/-- The body of a register form: it retires in a state with its `rip` and its mode. -/
theorem formBody_of_register {i : Instr} (s : State) (h : memOperand i = none) :
    ∃ u, formBody i s = retire i.len u ∧ u.rip = s.rip ∧ u.mode = s.mode := by
  cases i with
  | l10r | l11r | v10r | v11r | e10r | e11r => exact ⟨_, rfl, rfl, rfl⟩
  | l10m | l11m | v10m | v11m | e10m | e11m => cases h

/-- Settles O21: a completing form had room, and a register form's last act is to retire. -/
theorem ripWrapRefused : Obligations.RipWrapRefused := by
  intro i s noRoom
  refine ⟨fun t h => noRoom (exec_next h).2.1, fun register form zeroing ready => ?_⟩
  obtain ⟨u, body, rip, mode⟩ := formBody_of_register s register
  rw [exec_eq_formBody form zeroing (by simp [reservedVvvv_of_register register]) ready, body]
  exact retire_of_no_room (by rw [rip, mode]; exact noRoom)

/-- Settles O30: the mode check comes first. -/
theorem unnameableFormsRefusedIn32 : Obligations.UnnameableFormsRefusedIn32 := by
  intro i s mode unnameable
  have hasNot : ¬ HasForm s i := by simp [HasForm, nameable, mode, unnameable]
  rw [exec_eq_checks, modeCheck_of_not hasNot, guardOn_refuse]

/-! ### The reset state -/

@[simp] theorem reset_vreg (r : BitVec 5) : State.reset.vreg r = 0#512 := by simp [State.vreg, State.reset]
@[simp] theorem reset_kreg (r : BitVec 3) : State.reset.kreg r = 0#64 := by simp [State.kreg, State.reset]
@[simp] theorem reset_xreg (r : BitVec 4) : State.reset.xreg r = 0#64 := by simp [State.xreg, State.reset]

theorem reset_ready (i : Instr) : Ready State.reset i := by
  unfold Ready
  cases classOf i <;> exact ⟨rfl, rfl, rfl⟩

/-- Settles O51: the reset memory is empty and every register is zero. -/
theorem resetMeetsInvariant : Obligations.ResetMeetsInvariant where
  memory := rfl
  consistent := rfl
  vectorWidth := by simp
  upperFile := by simp
  maskWidth := by simp
  rip := by decide

/-- Settles O52: the enabling state of every class is set and every register is zero. -/
theorem resetIsALaunchState : Obligations.ResetIsALaunchState :=
  ⟨rfl, fun i => ⟨reset_ready i, rfl⟩, rfl, fun _ => rfl, reset_vreg, reset_kreg, reset_xreg⟩

end Sys2Proof.Machine

namespace Sys2Proof.Machine

/-! ### Changes of the state a form does not see -/

/-- A change of the state that touches nothing any operation of a form reads or writes but the opmask file, and that
commutes with every write: replacing the opmask file, RFLAGS or MXCSR (R25, R28). -/
structure Transparent (f : State → State) : Prop where
  cfg : ∀ s, (f s).cfg = s.cfg
  mode : ∀ s, (f s).mode = s.mode
  osSse : ∀ s, (f s).osSse = s.osSse
  osAvx : ∀ s, (f s).osAvx = s.osAvx
  osAvx512 : ∀ s, (f s).osAvx512 = s.osAvx512
  ts : ∀ s, (f s).ts = s.ts
  acCheck : ∀ s, (f s).acCheck = s.acCheck
  vr : ∀ s, (f s).vr = s.vr
  x : ∀ s, (f s).x = s.x
  rip : ∀ s, (f s).rip = s.rip
  text : ∀ s, (f s).text = s.text
  mem : ∀ s, (f s).mem = s.mem
  freeCount : ∀ s, (f s).freeCount = s.freeCount
  setVr : ∀ s v, { f s with vr := v } = f { s with vr := v }
  setRip : ∀ s r, (f s).setRip r = f (s.setRip r)
  setMem : ∀ s m, (f s).setMem m = f (s.setMem m)
  countChoice : ∀ s, (f s).countChoice = f s.countChoice

theorem transparent_opmasks (ks : Vector (BitVec 64) 8) : Transparent fun s => { s with k := ks } := by
  constructor <;> intros <;> rfl

theorem transparent_flags (fl : BitVec 64) (mx : BitVec 32) :
    Transparent fun s => { s with rflags := fl, mxcsr := mx } := by
  constructor <;> intros <;> rfl

section MapNext

variable {f : State → State}

@[simp] theorem mapNext_next (t : State) : mapNext f (.next t) = .next (f t) := rfl

@[simp] theorem mapNext_stop (stop : Stop) : mapNext f stop.result = stop.result := by cases stop <;> rfl

@[simp] theorem mapNext_guardOn (c : Option Stop) (k : Result) : mapNext f (guardOn c k) = guardOn c (mapNext f k) := by
  cases c with
  | none => rfl
  | some stop => exact mapNext_stop stop

end MapNext

namespace Transparent

variable {f : State → State} (hf : Transparent f) (s : State)
include hf

theorem vreg (r : BitVec 5) : (f s).vreg r = s.vreg r := by simp only [State.vreg, hf.vr]

theorem low (r : BitVec 5) : (f s).low r = s.low r := by simp only [State.low, State.vslice, hf.vreg]

theorem high (r : BitVec 5) : (f s).high r = s.high r := by simp only [State.high, State.vslice, hf.vreg]

theorem setVslice {n : Nat} (d : BitVec 5) (lo : Nat) (w : BitVec n) :
    (f s).setVslice d lo w = f (s.setVslice d lo w) := by
  simp only [State.setVslice, hf.vr, hf.vreg, hf.setVr]

theorem clearFrom (d : BitVec 5) (lo : Nat) : (f s).clearFrom d lo = f (s.clearFrom d lo) := by
  rw [State.clearFrom, hf.cfg, hf.setVslice]
  rfl

theorem moveLow (d src : BitVec 5) : moveLow (f s) d src = f (moveLow s d src) := by
  simp only [Machine.moveLow, hf.low, hf.setVslice]

theorem loadLegacy (d : BitVec 5) (q : Quad) : loadLegacy (f s) d q = f (loadLegacy s d q) := by
  simp only [Machine.loadLegacy, hf.setVslice]

theorem mergeInto (d : BitVec 5) (a b : Quad) : mergeInto (f s) d a b = f (mergeInto s d a b) := by
  simp only [Machine.mergeInto, hf.setVslice, hf.clearFrom]

theorem loadClearing (d : BitVec 5) (q : Quad) : loadClearing (f s) d q = f (loadClearing s d q) := by
  simp only [Machine.loadClearing, hf.setVslice, hf.clearFrom]

theorem maskedOffLow (d : BitVec 5) (z : Bool) : maskedOffLow (f s) d z = maskedOffLow s d z := by
  simp only [Machine.maskedOffLow, hf.low]

theorem mergeMasked {k : BitVec 3} (hk : maskOn (f s) k = maskOn s k) (z : Bool) (d s1 s2 : BitVec 5) :
    mergeMasked (f s) k z d s1 s2 = f (mergeMasked s k z d s1 s2) := by
  simp only [Machine.mergeMasked, hk, hf.low, hf.high, hf.maskedOffLow, hf.mergeInto]

theorem effAddr (scale : Addr) (len : Nat) (m : MemOp) : effAddr (f s) scale len m = effAddr s scale len m := by
  have index : ∀ i, indexValue (f s) i = indexValue s i := fun i => by
    cases i <;> simp only [indexValue, State.xreg, hf.x]
  simp only [Machine.effAddr, State.xreg, hf.mode, hf.x, hf.rip, index]

theorem memCheck (seg : Seg) (ea : Addr) (kind : AccessKind) : memCheck (f s) seg ea kind = memCheck s seg ea kind := by
  simp only [Machine.memCheck, spaceCheck, hf.mode, hf.cfg, hf.text]

theorem probeCheck (seg : Seg) (ea : Addr) (kind : AccessKind) :
    probeCheck (f s) seg ea kind = probeCheck s seg ea kind := by
  simp only [Machine.probeCheck, hf.memCheck]

theorem accessCheck (seg : Seg) (ea : Addr) (kind : AccessKind) :
    accessCheck (f s) seg ea kind = accessCheck s seg ea kind := by
  simp only [Machine.accessCheck, hf.memCheck, hf.acCheck]

theorem retire (len : Nat) : retire len (f s) = mapNext f (retire len s) := by
  simp only [Machine.retire, hf.rip, hf.mode, hf.setRip]
  split <;> rfl

theorem memRead {seg : Seg} {ea : Addr} {k k' : Quad → Result} (hk : ∀ q, k' q = mapNext f (k q)) :
    memRead (f s) seg ea k' = mapNext f (memRead s seg ea k) := by
  simp only [Machine.memRead, hf.accessCheck, hf.mem, hk, mapNext_guardOn]

theorem memWrite {seg : Seg} {ea : Addr} {v : Quad} {k : State → Result} (hk : ∀ u, k (f u) = mapNext f (k u)) :
    memWrite (f s) seg ea v k = mapNext f (memWrite s seg ea v k) := by
  simp only [Machine.memWrite, hf.accessCheck, hf.mem, hf.setMem, hk, mapNext_guardOn]

theorem maskedOffProbe {seg : Seg} {ea : Addr} {kind : AccessKind} {k : State → Result}
    (hk : ∀ u, k (f u) = mapNext f (k u)) :
    maskedOffProbe (f s) seg ea kind k = mapNext f (maskedOffProbe s seg ea kind k) := by
  simp only [Machine.maskedOffProbe, hf.probeCheck, hf.cfg, hf.freeCount, hf.countChoice, hk]
  cases Machine.probeCheck s seg ea kind with
  | none => rfl
  | some stop =>
    cases s.cfg.maskedOffFaults with
    | never => rfl
    | always => exact (mapNext_stop stop).symm
    | either => cases Config.freeChoice s.freeCount <;> simp

theorem modeCheck (i : Instr) : modeCheck i (f s) = modeCheck i s := by simp only [Machine.modeCheck, hf.mode]

theorem formClass (i : Instr) : formClass i (f s) = formClass i s := by
  unfold Machine.formClass
  cases classOf i <;>
    simp only [State.hasClass, State.osClass, hf.cfg, hf.osSse, hf.osAvx, hf.osAvx512, hf.ts]

/-- The body of a form does not see a transparent change that keeps the bit of its writemask. -/
theorem formBody {i : Instr} (hmask : ∀ k z, maskOf i = some (k, z) → maskOn (f s) k = maskOn s k) :
    formBody i (f s) = mapNext f (formBody i s) := by
  cases i with
  | l10r | l11r => simp only [Machine.formBody, hf.moveLow, hf.retire]
  | v10r | v11r => simp only [Machine.formBody, hf.low, hf.high, hf.mergeInto, hf.retire]
  | e10r | e11r => simp only [Machine.formBody, hf.mergeMasked s (hmask _ _ rfl), hf.retire]
  | l10m =>
    simp only [Machine.formBody, hf.effAddr]
    exact hf.memRead s fun q => by rw [hf.loadLegacy, hf.retire]
  | v10m =>
    simp only [Machine.formBody, hf.effAddr]
    exact hf.memRead s fun q => by rw [hf.loadClearing, hf.retire]
  | l11m | v11m =>
    simp only [Machine.formBody, hf.effAddr, hf.low]
    exact hf.memWrite s fun u => hf.retire u _
  | e10m =>
    simp only [Machine.formBody, hf.effAddr, hmask _ _ rfl]
    split
    · exact hf.memRead s fun q => by rw [hf.loadClearing, hf.retire]
    · exact hf.maskedOffProbe s fun u => by rw [hf.maskedOffLow, hf.loadClearing, hf.retire]
  | e11m =>
    simp only [Machine.formBody, hf.effAddr, hf.low, hmask _ _ rfl]
    split
    · exact hf.memWrite s fun u => hf.retire u _
    · exact hf.maskedOffProbe s fun u => hf.retire u _

/-- No form sees a transparent change that keeps the bit of its writemask. -/
theorem exec {i : Instr} (hmask : ∀ k z, maskOf i = some (k, z) → maskOn (f s) k = maskOn s k) :
    exec i (f s) = mapNext f (exec i s) := by
  simp only [exec_eq_checks, hf.modeCheck, hf.formClass, hf.formBody s hmask, mapNext_guardOn]

end Transparent

/-- Settles O26: with no mask field, or with `k = 000b`, the writemask is on whatever the opmask file holds. -/
theorem unmaskedFormsIgnoreOpmasks : Obligations.UnmaskedFormsIgnoreOpmasks := by
  refine ⟨fun i s ks unmasked => (transparent_opmasks ks).exec s fun k z h => ?_, fun i s t h k => ?_⟩
  · simp [maskOn, unmasked k z h]
  · simp only [State.kreg, (exec_controlKept h).k]

/-- Settles O28: RFLAGS and MXCSR are seen by no operation. -/
theorem flagsAndMxcsrUnused : Obligations.FlagsAndMxcsrUnused :=
  fun _ s fl mx => (transparent_flags fl mx).exec s fun _ _ _ => rfl

end Sys2Proof.Machine

namespace Sys2Proof

/-! ### Decoding what the encoder wrote -/

theorem reg4_getElem_low3 (r : BitVec 4) : reg4 r[3] (low3 r) = r := reg4_getLsbD_low3 r

/-- The opcode byte tells the opcode (R80). -/
theorem opByte_cases (op : Bool) :
    (opByte op = 0x10#8 ∨ opByte op = 0x11#8) ∧ (opByte op == 0x11#8) = op := by revert op; decide

/-- The tail of a register form is read as it was written (R84, R86). -/
theorem decodeTail_register (x b op : Bool) (reg rm : BitVec 3) (rest : List Byte) :
    decodeTail x b (opByte op :: regModRM reg rm :: rest) = .ok (⟨op, reg, .reg rm⟩, rest) := by
  simp [decodeTail, opByte_cases, regModRM]

theorem Disp.modField_ne (d : Disp) : d.modField ≠ 3#2 := by cases d <;> simp [Disp.modField]

/-- Only `mod = 00b` writes no displacement (R90). -/
theorem Disp.modField_eq_zero (d : Disp) : d.modField = 0#2 ↔ d = .d0 := by cases d <;> simp [Disp.modField]

/-- The tail of a memory form is read as it was written, under the extension bits its registers need (R86, R89, R90). -/
theorem decodeTail_memory {m : MemOp} (hm : m.wf = true) (op : Bool) (reg : BitVec 3) (rest : List Byte) :
    decodeTail m.bitX m.bitB (opByte op :: (m.bytes reg ++ rest)) = .ok (⟨op, reg, .mem m⟩, rest) := by
  cases m with
  | base b d =>
    simp only [MemOp.wf, Bool.and_eq_true, bne_iff_ne, Bool.or_eq_true] at hm
    obtain ⟨noSib, base⟩ := hm
    have direct : ¬ (d.modField = 0#2 ∧ low3 b = 5#3) := by
      rw [Disp.modField_eq_zero]
      tauto
    simp [decodeTail, opByte_cases, MemOp.bytes, decodeMem, d.modField_ne, noSib, direct, MemOp.bitB,
      reg4_getElem_low3]
  | ripRel v => simp [decodeTail, opByte_cases, MemOp.bytes, decodeMem]
  | sib b i d =>
    simp only [MemOp.wf, Bool.and_eq_true, bne_iff_ne, Bool.or_eq_true] at hm
    obtain ⟨index, base⟩ := hm
    have hasBase : ¬ (d.modField = 0#2 ∧ low3 b = 5#3) := by
      rw [Disp.modField_eq_zero]
      tauto
    have index : indexOf (MemOp.sib b i d).bitX (sibOf (sibFor i (low3 b))) = i :=
      indexOf_sibFor i _ _ index (by cases i <;> rfl)
    simp [decodeTail, opByte_cases, MemOp.bytes, decodeMem, d.modField_ne, hasBase, index, MemOp.bitB,
      reg4_getElem_low3]
  | sibNoBase i v =>
    have index : indexOf (MemOp.sibNoBase i v).bitX (sibOf (sibFor i 5#3)) = i :=
      indexOf_sibFor i _ _ hm (by cases i <;> rfl)
    simp [decodeTail, opByte_cases, MemOp.bytes, decodeMem, index]

/-- The REX byte the encoder writes (R87, R88). -/
theorem rexByte_fields (r x b : Bool) (p : Byte)
    (hp : p = 4#4 ++ 0#1 ++ BitVec.ofBool r ++ BitVec.ofBool x ++ BitVec.ofBool b) :
    p ≠ 0x0F#8 ∧ p.extractLsb' 4 4 = 4#4 ∧ p.getLsbD 2 = r ∧ p.getLsbD 1 = x ∧ p.getLsbD 0 = b := by
  subst hp
  revert r x b
  decide

section Heads

variable {rest bs : List Byte} {t : Tail} {r x b wide : Bool}

/-- A legacy head and a tail; without a REX byte there is no extension bit (R87, R88). -/
theorem decode_legacyHead (hx : wide = true ∨ (r = false ∧ x = false ∧ b = false))
    (ht : decodeTail x b bs = .ok (t, rest)) :
    decode (legacyHead wide r x b ++ bs) = .ok (legacyInstr wide r b t, rest) := by
  cases wide with
  | true =>
    obtain ⟨escape, rex, hr, hx', hb⟩ := rexByte_fields r x b _ rfl
    simp only [legacyHead, if_true, List.cons_append, List.nil_append, decode_F2, decodeLegacy, if_neg escape, rex, hr,
      hx', hb, ht]
  | false =>
    obtain ⟨rfl, rfl, rfl⟩ : r = false ∧ x = false ∧ b = false := by simpa using hx
    simp [legacyHead, decode_F2, decodeLegacy, ht]

theorem vex2Byte_fields (r : Bool) (v : BitVec 4) (p : Byte) (hp : p = BitVec.ofBool (!r) ++ v ++ 0#1 ++ 3#2) :
    p.extractLsb' 0 2 = 3#2 ∧ (!p.getLsbD 7) = r ∧ p.extractLsb' 3 4 = v := by
  subst hp
  revert r v
  decide

theorem vex3Byte1_fields (r x b : Bool) (p : Byte)
    (hp : p = BitVec.ofBool (!r) ++ BitVec.ofBool (!x) ++ BitVec.ofBool (!b) ++ 1#5) :
    p.extractLsb' 0 5 = 1#5 ∧ (!p.getLsbD 7) = r ∧ (!p.getLsbD 6) = x ∧ (!p.getLsbD 5) = b := by
  subst hp
  revert r x b
  decide

theorem vex3Byte2_fields (v : BitVec 4) (q : Byte) (hq : q = 0#1 ++ v ++ 0#1 ++ 3#2) :
    q.extractLsb' 0 2 = 3#2 ∧ q.extractLsb' 3 4 = v := by
  subst hq
  revert v
  decide

/-- A VEX head and a tail; the 2-byte form has no `X` and no `B` (R94, R95). -/
theorem decode_vexHead (v : BitVec 4) (hx : wide = true ∨ (x = false ∧ b = false))
    (ht : decodeTail x b bs = .ok (t, rest)) :
    decode (vexHead wide r x b v ++ bs) = .ok (vexInstr wide r b v t, rest) := by
  cases wide with
  | true =>
    obtain ⟨map, hr, hx', hb⟩ := vex3Byte1_fields r x b _ rfl
    obtain ⟨pp, hv⟩ := vex3Byte2_fields v _ rfl
    simp only [vexHead, if_true, List.cons_append, List.nil_append, decode_C4, decodeVex3, map, pp, hr, hx', hb, hv, ht,
      and_self]
  | false =>
    obtain ⟨rfl, rfl⟩ : x = false ∧ b = false := by simpa using hx
    obtain ⟨pp, hr, hv⟩ := vex2Byte_fields r v _ rfl
    simp only [vexHead, Bool.false_eq_true, if_false, List.cons_append, List.nil_append, decode_C5, decodeVex2, if_true,
      pp, hr, hv, ht]

theorem evexByte0_fields (r x b r' : Bool) (p : Byte)
    (hp : p = BitVec.ofBool (!r) ++ BitVec.ofBool (!x) ++ BitVec.ofBool (!b) ++ BitVec.ofBool (!r') ++ 0#2 ++ 1#2) :
    p.extractLsb' 0 2 = 1#2 ∧ p.extractLsb' 2 2 = 0#2 ∧
      (!p.getLsbD 7) = r ∧ (!p.getLsbD 6) = x ∧ (!p.getLsbD 5) = b ∧ (!p.getLsbD 4) = r' := by
  subst hp
  revert r x b r'
  decide

theorem evexByte1_fields (v : BitVec 4) (p : Byte) (hp : p = 1#1 ++ v ++ 1#1 ++ 3#2) :
    p.extractLsb' 0 2 = 3#2 ∧ p.getLsbD 2 = true ∧ p.getLsbD 7 = true ∧ p.extractLsb' 3 4 = v := by
  subst hp
  revert v
  decide

theorem evexByte2_fields (z v' : Bool) (k : BitVec 3) (p : Byte)
    (hp : p = BitVec.ofBool z ++ 0#2 ++ 0#1 ++ BitVec.ofBool (!v') ++ k) :
    p.extractLsb' 5 2 = 0#2 ∧ p.getLsbD 4 = false ∧ p.extractLsb' 0 3 = k ∧ p.getLsbD 7 = z ∧ (!p.getLsbD 3) = v' := by
  subst hp
  revert z v' k
  decide

/-- An EVEX head and a tail, where no setting of R99 is refused (R97, R98). -/
theorem decode_evexHead {e : Evex} {i : Instr} (hz : ¬ (e.k = 0#3 ∧ e.z = true))
    (ht : decodeTail e.x e.b bs = .ok (t, rest)) (hi : evexInstr e t = .ok i) :
    decode (evexHead e ++ bs) = .ok (i, rest) := by
  obtain ⟨r, x, b, r', v, v', k, z⟩ := e
  obtain ⟨map, reserved, hr, hx, hb, hr'⟩ := evexByte0_fields r x b r' _ rfl
  obtain ⟨pp, fixed, w, hv⟩ := evexByte1_fields v _ rfl
  obtain ⟨length, broadcast, hk, hz', hv'⟩ := evexByte2_fields z v' k _ rfl
  simp only [evexHead, List.cons_append, List.nil_append, decode_62, decodeEvex, evexRefusal, evexOf, map, reserved, hr,
    hx, hb, hr', pp, fixed, w, hv, length, broadcast, hk, hz', hv', hz, ht, hi]
  simp

end Heads

/-- Every form: the bytes the encoder writes, whatever bytes follow, decode to the form and leave those bytes. -/
theorem decode_encode (i : Instr) (rest : List Byte) (hi : i.wf = true) : decode (encode i ++ rest) = .ok (i, rest) := by
  cases i with
  | l10r rex d src =>
    simp only [encode, List.append_assoc, List.cons_append, List.nil_append]
    rw [decode_legacyHead (by simpa [Instr.wf] using hi) (decodeTail_register ..)]
    simp [legacyInstr]
  | l11r rex d src =>
    simp only [encode, List.append_assoc, List.cons_append, List.nil_append]
    rw [decode_legacyHead (by simpa [Instr.wf, and_comm] using hi) (decodeTail_register ..)]
    simp [legacyInstr]
  | l10m rex d m | l11m rex m d =>
    simp only [Instr.wf, Bool.and_eq_true] at hi
    obtain ⟨hm, hi⟩ := hi
    simp only [encode, List.append_assoc, List.cons_append]
    rw [decode_legacyHead (by simpa [and_assoc] using hi) (decodeTail_memory hm ..)]
    simp [legacyInstr]
  | v10r vex3 d s1 s2 | v11r vex3 d s1 s2 =>
    simp only [encode, List.append_assoc, List.cons_append, List.nil_append]
    rw [decode_vexHead _ (by simpa [Instr.wf] using hi) (decodeTail_register ..)]
    simp [vexInstr]
  | v10m vex3 vvvv d m | v11m vex3 vvvv m d =>
    simp only [Instr.wf, Bool.and_eq_true] at hi
    obtain ⟨hm, hi⟩ := hi
    simp only [encode, List.append_assoc, List.cons_append]
    rw [decode_vexHead _ (by simpa using hi) (decodeTail_memory hm ..)]
    simp [vexInstr]
  | e10r k z d s1 s2 | e11r k z d s1 s2 =>
    simp only [encode, List.append_assoc, List.cons_append, List.nil_append]
    exact decode_evexHead (by simpa [Instr.wf, imp_iff_not_or] using hi) (decodeTail_register ..) (by simp [evexInstr])
  | e10m k z vvvv d m =>
    simp only [Instr.wf, Bool.and_eq_true] at hi
    obtain ⟨hm, hi⟩ := hi
    simp only [encode, List.append_assoc, List.cons_append]
    exact decode_evexHead (by simpa [imp_iff_not_or] using hi) (decodeTail_memory hm ..) (by simp [evexInstr])
  | e11m k vvvv m src =>
    simp only [encode, List.append_assoc, List.cons_append]
    exact decode_evexHead (by simp) (decodeTail_memory hi ..) (by simp [evexInstr])

/-- The encoder writes `len` bytes, at most 11 (R104). -/
theorem encode_length (i : Instr) : (encode i).length = i.len ∧ 4 ≤ i.len ∧ i.len ≤ 11 := by
  cases i with
  | l10r => exact Laws.EncodedLength.l10r ..
  | l10m => exact Laws.EncodedLength.l10m ..
  | l11r => exact Laws.EncodedLength.l11r ..
  | l11m => exact Laws.EncodedLength.l11m ..
  | v10r => exact Laws.EncodedLength.v10r ..
  | v10m => exact Laws.EncodedLength.v10m ..
  | v11r => exact Laws.EncodedLength.v11r ..
  | v11m => exact Laws.EncodedLength.v11m ..
  | e10r => exact Laws.EncodedLength.e10r ..
  | e10m => exact Laws.EncodedLength.e10m ..
  | e11r => exact Laws.EncodedLength.e11r ..
  | e11m => exact Laws.EncodedLength.e11m ..

end Sys2Proof

namespace Sys2Proof.Machine

/-- Bytes memory holds from an address are the first bytes a fetch from there gives (R32, R51). -/
theorem Memory.fetch_of_holds {m : Memory} (bs : List Byte) {a n : Nat} (fits : bs.length ≤ n)
    (below : a + bs.length ≤ 2 ^ 64) (holds : ∀ j (h : j < bs.length), m.read (a + j) = bs[j]) :
    ∃ rest, m.fetch a n = bs ++ rest := by
  induction bs generalizing a n with
  | nil => exact ⟨_, rfl⟩
  | cons b bs ih =>
    simp only [List.length_cons] at fits below
    obtain ⟨n, rfl⟩ := Nat.exists_eq_add_of_le' (show 1 ≤ n by omega)
    have first : m.read a = b := holds 0 (by simp)
    obtain ⟨rest, tail⟩ := ih (a := a + 1) (n := n) (by omega) (by omega) fun j h => by
      rw [Nat.add_assoc, Nat.add_comm 1 j]
      exact holds (j + 1) (by simpa using h)
    exact ⟨rest, by rw [Memory.fetch, if_pos (by omega), first, tail, List.cons_append]⟩

/-- In 64-bit mode a step runs the form its bytes decode to, in the program text (R63, R83). -/
theorem step_of_decoded {s : State} {i : Instr} {rest : List Byte} (mode : s.mode = .mode64)
    (decoded : decode (fetchBytes s) = .ok (i, rest)) (text : s.text.covers s.rip.toNat i.len = true) :
    step s = exec i s := by
  simp only [step, mode, decoded, textCheck_eq_none.mpr text, guardOn_none]

/-- Settles O48: the fetch begins with the form's encoding, which decodes to the form. -/
theorem stepRunsEncodedBytes : Obligations.StepRunsEncodedBytes := by
  intro s i mode wf below base top holds
  obtain ⟨length, -, short⟩ := encode_length i
  obtain ⟨rest, fetched⟩ := Memory.fetch_of_holds (n := 15) (encode i) (by omega) (by omega) holds
  have decoded : decode (fetchBytes s) = .ok (i, rest) := by rw [fetchBytes, fetched, decode_encode i rest wf]
  exact step_of_decoded mode decoded (covers_iff.mpr ⟨base, top⟩)

end Sys2Proof.Machine

namespace Sys2Proof.Machine

/-! ### Checks of an access -/

/-- The text is met exactly where one of the eight bytes lies in it (R63). -/
theorem meets_iff {t : TextRange} {ea : Nat} :
    t.meets ea = true ↔ ∃ a, ea ≤ a ∧ a < ea + 8 ∧ t.base.toNat ≤ a ∧ a < t.base.toNat + t.len := by
  simp only [TextRange.meets, Bool.and_eq_true, decide_eq_true_eq]
  constructor
  · rintro ⟨⟨nonempty, below⟩, above⟩
    exact ⟨max ea t.base.toNat, by omega⟩
  · rintro ⟨a, first, last, base, top⟩
    omega

/-- Bits 63:47 of a canonical address are all equal (R55). -/
theorem canonical_bits {a : Addr} (h : canonical a = true) {p q : Nat} (hp : 47 ≤ p ∧ p ≤ 63) (hq : 47 ≤ q ∧ q ≤ 63) :
    a.getLsbD p = a.getLsbD q := by
  have bit : ∀ r, 47 ≤ r ∧ r ≤ 63 → a.getLsbD r = (a.extractLsb' 47 17).getLsbD (r - 47) := fun r hr => by
    rw [BitVec.getLsbD_extractLsb', Nat.add_sub_cancel' hr.1, decide_eq_true (by omega), Bool.true_and]
  rw [bit p hp, bit q hq]
  simp only [canonical, Bool.or_eq_true, beq_iff_eq] at h
  rcases h with zeros | ones
  · simp only [zeros, BitVec.getLsbD_zero]
  · rw [ones, BitVec.getLsbD_allOnes, BitVec.getLsbD_allOnes, decide_eq_true (by omega), decide_eq_true (by omega)]

section Access

variable {s : State} {seg : Seg} {ea : Addr} {kind : AccessKind} {stop : Stop}

/-- In 64-bit mode the canonical test comes first (R55, R208). -/
theorem memCheck_of_not_canonical (mode : s.mode = .mode64) (h : canonical ea = false) :
    memCheck s seg ea kind = some (.fault seg.fault) := by
  simp [memCheck, mode, h]

/-- Where the address is canonical and the platform's map admits the access, the model's own test answers (R56). -/
theorem memCheck_of_map_admits (can : s.mode = .mode64 → canonical ea = true ∧ canonical (ea + 7#64) = true)
    (map : lookupRule s.cfg.memMap ea kind = .admits) : memCheck s seg ea kind = spaceCheck s ea kind := by
  have passes : ¬ (s.mode = .mode64 ∧ (canonical ea && canonical (ea + 7#64)) = false) := by
    rintro ⟨mode, bad⟩
    simp [can mode] at bad
  rw [memCheck, if_neg passes, map]

/-- A store within the address space that meets the text is refused (R63). -/
theorem spaceCheck_of_meets (top : ea.toNat + 7 < 2 ^ s.mode.addrWidth) (h : s.text.meets ea.toNat = true) :
    spaceCheck s ea .write = some (.refuse .storeIntoText) := by
  rw [spaceCheck, if_neg (by omega), if_pos ⟨rfl, h⟩]

/-- No byte of an admitted store lies in the text (R63). -/
theorem admitted_store_outside_text (h : Admitted s seg ea .write) :
    ¬ ∃ a : Nat, ea.toNat ≤ a ∧ a < ea.toNat + 8 ∧ s.text.base.toNat ≤ a ∧ a < s.text.base.toNat + s.text.len := by
  rw [← meets_iff, memCheck_none_text h.1]
  exact Bool.false_ne_true

/-- MemCheck's answer comes before the alignment check (R208). -/
theorem accessCheck_of_memCheck (h : memCheck s seg ea kind = some stop) :
    accessCheck s seg ea kind = some stop := by
  simp [accessCheck, h]

theorem accessCheck_of_misaligned (admits : memCheck s seg ea kind = none) (ac : s.acCheck = true)
    (h : ea.toNat % 8 ≠ 0) : accessCheck s seg ea kind = some (.fault .ac) := by
  simp [accessCheck, admits, ac, h]

/-- Under `always` a masked-off probe of a rejected address stops (R58). -/
theorem maskedOffProbe_of_always {k : State → Result} (h : probeCheck s seg ea kind = some stop)
    (always : s.cfg.maskedOffFaults = .always) : maskedOffProbe s seg ea kind k = stop.result := by
  simp [maskedOffProbe, h, always]

/-- Under `either` a masked-off probe of a rejected address stops or goes on with the choice counted (R58). -/
theorem maskedOffProbe_of_either {k : State → Result} (h : probeCheck s seg ea kind = some stop)
    (either : s.cfg.maskedOffFaults = .either) :
    maskedOffProbe s seg ea kind k = stop.result ∨ maskedOffProbe s seg ea kind k = k s.countChoice := by
  simp only [maskedOffProbe, h, either]
  cases Config.freeChoice s.freeCount
  · exact .inr rfl
  · exact .inl rfl

end Access

/-- Settles O33: the canonical test is first, and an admitted access ends within the address space. -/
theorem addressSpaceChecks : Obligations.AddressSpaceChecks := by
  intro s seg ea kind
  refine ⟨fun past admits => absurd (memCheck_none_top admits) (by omega), ?_⟩
  rintro mode ⟨p, q, hp, hp', hq, hq', differ⟩
  have bad : canonical ea = false := by
    by_contra h
    exact differ (canonical_bits (Bool.eq_true_of_not_eq_false h) ⟨hp, hp'⟩ ⟨hq, hq'⟩)
  rw [memCheck_of_not_canonical mode bad]
  cases seg <;> rfl

/-! ### The platform's map -/

/-- The map rule that answers one access as `f` does. -/
def pointRule (f : Addr → AccessKind → MemVerdict) (p : Addr × AccessKind) : MemRule :=
  ⟨p.1, p.1, p.2, f p.1 p.2⟩

/-- Rules for single accesses answer every access listed as `f` does (R56). -/
theorem lookupRule_pointRules (f : Addr → AccessKind → MemVerdict) {ea : Addr} {kind : AccessKind}
    {ps : List (Addr × AccessKind)} (h : (ea, kind) ∈ ps) : lookupRule (ps.map (pointRule f)) ea kind = f ea kind := by
  induction ps with
  | nil => cases h
  | cons p ps ih =>
    simp only [List.map_cons, lookupRule]
    split
    · next covers =>
      obtain ⟨sameKind, lo, hi⟩ := covers
      have sameAddr : p.1 = ea := BitVec.eq_of_toNat_eq (Nat.le_antisymm lo hi)
      subst sameAddr sameKind
      rfl
    · next misses =>
      refine ih ((List.mem_cons.mp h).resolve_left fun e => misses ?_)
      subst e
      exact ⟨rfl, le_refl _, le_refl _⟩

/-- There are finitely many accesses. -/
theorem finite_accesses : Finite (Addr × AccessKind) := by
  have addresses : Finite Addr := Finite.of_injective BitVec.toFin fun _ _ => BitVec.eq_of_toFin_eq
  have kinds : Finite AccessKind :=
    Finite.of_injective (fun kind => decide (kind = .read)) fun a b => by cases a <;> cases b <;> simp
  infer_instance

/-- Settles O34: one rule for each of the finitely many accesses. -/
theorem everyMemCheckIsAMap : Obligations.EveryMemCheckIsAMap := by
  intro f
  have finite := finite_accesses
  obtain ⟨accesses, -, all⟩ := Finite.exists_univ_list (Addr × AccessKind)
  exact ⟨accesses.map (pointRule f), fun ea kind => lookupRule_pointRules f (all (ea, kind))⟩

/-! ### Reading memory -/

/-- Settles O32: the byte at `a + j` stands in bits `8j+7:8j` of the quadword. -/
theorem loadsAreLittleEndian : Obligations.LoadsAreLittleEndian := by
  intro mem a j hj
  unfold quadByte Memory.readQuad
  interval_cases j <;>
    simp (disch := omega) only [BitVec.extractLsb'_append_eq_of_le, BitVec.extractLsb'_append_eq_of_add_le,
      BitVec.extractLsb'_eq_self, Nat.sub_self, Nat.reduceSub, Nat.reduceMul, Nat.add_zero]

/-! ### What a form does past its checks where its access is stopped -/

section Stopped

variable {i : Instr} {m : MemOp} {kind : AccessKind} {scale : Addr} {s t : State}

/-- An active memory form past its checks stops where the check of its access does (R208). -/
theorem formBody_of_accessCheck {stop : Stop} (operand : memOperand i = some (m, kind, scale))
    (on : active s i = true) (h : accessCheck s (segOf m) (effAddr s scale i.len m) kind = some stop) :
    formBody i s = stop.result := by
  cases i with
  | l10r | l11r | v10r | v11r | e10r | e11r => cases operand
  | l10m | v10m => cases operand; simp [formBody, memRead, h, guardOn]
  | l11m | v11m => cases operand; simp [formBody, memWrite, h, guardOn]
  | e10m => cases operand; simp [formBody, show maskOn s _ = true from on, memRead, h, guardOn]
  | e11m => cases operand; simp [formBody, show maskOn s _ = true from on, memWrite, h, guardOn]

/-- An active memory form completes only where its access is admitted (R56, R66). -/
theorem exec_next_admitted (operand : memOperand i = some (m, kind, scale)) (on : active s i = true)
    (h : exec i s = .next t) : Admitted s (segOf m) (effAddr s scale i.len m) kind := by
  simp only [exec_eq_checks, guardOn_next] at h
  obtain ⟨-, -, -, -, body⟩ := h
  rw [← accessCheck_eq_none, Option.eq_none_iff_forall_ne_some]
  intro stop stopped
  exact stop_ne_next stop t ((formBody_of_accessCheck operand on stopped).symm.trans body)

/-- A form that stores has an active memory operand at the address it stores to (R137). -/
theorem storeTarget_operand {ea : Addr} (h : storeTarget s i = some ea) :
    ∃ m scale, memOperand i = some (m, .write, scale) ∧ active s i = true ∧ ea = effAddr s scale i.len m := by
  unfold storeTarget at h
  split at h
  · next m scale operand =>
    split at h
    · next on => exact ⟨m, scale, operand, on, (Option.some.inj h).symm⟩
    · cases h
  · cases h

/-- No store form zeroes (R175). -/
theorem zeroingNoMask_of_store (operand : memOperand i = some (m, .write, scale)) : zeroingNoMask i = false := by
  cases i with
  | l11m | v11m => rfl
  | e11m => simp [zeroingNoMask, maskOf]
  | l10r | l10m | l11r | v10r | v10m | v11r | e10r | e10m | e11r => cases operand

/-- A form that completes changes no byte of the program text (R63). -/
theorem exec_keeps_text (h : exec i s = .next t) {a : Nat} (base : s.text.base.toNat ≤ a)
    (top : a < s.text.base.toNat + s.text.len) : t.mem.read a = s.mem.read a := by
  obtain ⟨-, -, memory⟩ := formFrame i s t h
  refine memory a fun ea target => ?_
  obtain ⟨m, scale, operand, on, rfl⟩ := storeTarget_operand target
  by_contra inside
  exact absurd ⟨a, by omega, by omega, base, top⟩ (admitted_store_outside_text (exec_next_admitted operand on h))

end Stopped

/-- Settles O16: past its checks a memory form is the check of its access, then the access. -/
theorem memoryFaultOrder : Obligations.MemoryFaultOrder := by
  rintro i m kind scale _ s operand rfl form zeroing vvvv ready on
  rw [exec_eq_formBody form zeroing vvvv ready]
  exact ⟨fun stop rejected => formBody_of_accessCheck operand on (accessCheck_of_memCheck rejected),
    fun admits ac misaligned => formBody_of_accessCheck operand on (accessCheck_of_misaligned admits ac misaligned)⟩

/-- Settles O53: an admitted store does not meet the text, and past the other tests MemCheck refuses one that does. -/
theorem storeIntoTextRefused : Obligations.StoreIntoTextRefused := by
  rintro i m scale _ s operand rfl on inText
  refine ⟨fun t h => admitted_store_outside_text (exec_next_admitted operand on h) inText,
    fun form vvvv ready can map top => ?_⟩
  have refused : memCheck s (segOf m) (effAddr s scale i.len m) .write = some (.refuse .storeIntoText) :=
    (memCheck_of_map_admits can map).trans (spaceCheck_of_meets top (meets_iff.mpr inText))
  rw [exec_eq_formBody form (zeroingNoMask_of_store operand) vvvv ready]
  exact formBody_of_accessCheck operand on (accessCheck_of_memCheck refused)

/-- Settles O35: a step runs a form within the text, and no form that completes stores into it. -/
theorem programTextImmutable : Obligations.ProgramTextImmutable := by
  intro s t h
  obtain ⟨-, i, rest, decoded, covered, run⟩ := step_next.mp h
  exact ⟨⟨i, rest, decoded, covers_iff.mp covered⟩, (exec_controlKept run).text,
    fun _ base top => exec_keeps_text run base top⟩

/-- Settles O47: the text check passes for a form that lies in the text. -/
theorem stepRunsDecodedForm : Obligations.StepRunsDecodedForm :=
  fun _ _ _ mode decoded base top => step_of_decoded mode decoded (covers_iff.mpr ⟨base, top⟩)

/-! ### Masked-off forms whose address is rejected -/

section MaskedOff

variable {k : BitVec 3} {z : Bool} {d : BitVec 5} {m : MemOp} {s : State}

/-- A masked-off EVEX load past its checks is its probe (R173). -/
theorem exec_e10m_maskedOff (masked : k ≠ 0#3) (off : (s.kreg k).getLsbD 0 = false)
    (form : HasForm s (.e10m k z 15#4 d m)) (ready : Ready s (.e10m k z 15#4 d m)) :
    exec (.e10m k z 15#4 d m) s =
      maskedOffProbe s (segOf m) (effAddr s tuple1Disp (Instr.e10m k z 15#4 d m).len m) .read fun u =>
        retire (Instr.e10m k z 15#4 d m).len (loadClearing u d (maskedOffLow u d z)) := by
  rw [exec_eq_formBody form (by simp [zeroingNoMask, maskOf, masked]) (by simp [reservedVvvv]) ready]
  simp [formBody, maskOn_eq_false.mpr ⟨masked, off⟩]

/-- A masked-off EVEX store past its checks is its probe (R175). -/
theorem exec_e11m_maskedOff (masked : k ≠ 0#3) (off : (s.kreg k).getLsbD 0 = false)
    (form : HasForm s (.e11m k 15#4 m d)) (ready : Ready s (.e11m k 15#4 m d)) :
    exec (.e11m k 15#4 m d) s =
      maskedOffProbe s (segOf m) (effAddr s tuple1Disp (Instr.e11m k 15#4 m d).len m) .write fun u =>
        retire (Instr.e11m k 15#4 m d).len u := by
  rw [exec_eq_formBody form (by simp [zeroingNoMask, maskOf]) (by simp [reservedVvvv]) ready]
  simp [formBody, maskOn_eq_false.mpr ⟨masked, off⟩]

/-- A form that is a probe of a rejected address: it stops, or under `either` retires with the choice counted (R58). -/
theorem exec_of_rejected_probe {i : Instr} {seg : Seg} {ea : Addr} {kind : AccessKind} {stop : Stop} {w : State → State}
    (run : exec i s = maskedOffProbe s seg ea kind fun u => retire i.len (w u))
    (rejected : probeCheck s seg ea kind = some stop) (rip : (w s.countChoice).rip = s.rip)
    (mode : (w s.countChoice).mode = s.mode) :
    (s.cfg.maskedOffFaults = .always → exec i s = stop.result) ∧
    (s.cfg.maskedOffFaults = .either → RipRoom s i →
      exec i s = stop.result ∨ exec i s = .next ((w s.countChoice).setRip (s.rip + BitVec.ofNat 64 i.len))) := by
  rw [run]
  exact ⟨maskedOffProbe_of_always rejected, fun either room =>
    (maskedOffProbe_of_either rejected either).imp_right fun goesOn => goesOn.trans (retire_of_kept room rip mode)⟩

end MaskedOff

/-- Settles O13: the probe stops or, under `either`, goes on with no more than the choice counted. -/
theorem maskedOffRejectedAddress : Obligations.MaskedOffRejectedAddress := by
  rintro k z d m i kind stop s (⟨rfl, rfl⟩ | ⟨rfl, rfl⟩) masked off rejected form ready
  · obtain ⟨stops, either⟩ := exec_of_rejected_probe (exec_e10m_maskedOff masked off form ready) rejected rfl rfl
    refine ⟨stops, fun free room => (either free room).imp_right fun next => ?_⟩
    obtain ⟨control, others, -⟩ := formFrame _ _ _ next
    refine ⟨_, next, rfl, rfl, control, others, fun _ => ⟨?_, fun j above below => ?_⟩⟩
    · rw [setRip_low, low_loadClearing]
      rfl
    · rw [setRip_vreg]
      exact loadClearing_clears _ _ _ above below
  · obtain ⟨stops, either⟩ := exec_of_rejected_probe (exec_e11m_maskedOff masked off form ready) rejected rfl rfl
    refine ⟨stops, fun free room => (either free room).imp_right fun next => ?_⟩
    obtain ⟨control, others, -⟩ := formFrame _ _ _ next
    exact ⟨_, next, rfl, rfl, control, others, fun load => by cases load⟩

/-! ### Replacing the memory -/

section SetMem

variable (s : State) (mem : Memory)

/-! A write of a vector register neither sees nor touches memory (R52). -/

theorem moveLow_setMem (d src : BitVec 5) : moveLow (s.setMem mem) d src = (moveLow s d src).setMem mem := rfl

theorem loadLegacy_setMem (d : BitVec 5) (q : Quad) :
    loadLegacy (s.setMem mem) d q = (loadLegacy s d q).setMem mem := rfl

theorem mergeInto_setMem (d : BitVec 5) (a b : Quad) :
    mergeInto (s.setMem mem) d a b = (mergeInto s d a b).setMem mem := rfl

theorem loadClearing_setMem (d : BitVec 5) (q : Quad) :
    loadClearing (s.setMem mem) d q = (loadClearing s d q).setMem mem := rfl

theorem mergeMasked_setMem (k : BitVec 3) (z : Bool) (d s1 s2 : BitVec 5) :
    mergeMasked (s.setMem mem) k z d s1 s2 = (mergeMasked s k z d s1 s2).setMem mem := rfl

/-- The last act of a form neither sees nor touches memory (R27, R52). -/
theorem retire_setMem (len : Nat) : retire len (s.setMem mem) = mapNext (·.setMem mem) (retire len s) := by
  unfold retire
  rw [setMem_rip, setMem_mode]
  split <;> rfl

/-- A load past its access check sees memory only in the quadword it reads (R52). -/
theorem memRead_setMem {seg : Seg} {ea : Addr} {k k' : Quad → Result}
    (same : mem.readQuad ea.toNat = s.mem.readQuad ea.toNat) (hk : ∀ q, k' q = mapNext (·.setMem mem) (k q)) :
    memRead (s.setMem mem) seg ea k' = mapNext (·.setMem mem) (memRead s seg ea k) := by
  have check : accessCheck (s.setMem mem) seg ea .read = accessCheck s seg ea .read := rfl
  simp only [memRead, check, setMem_mem, same, hk, mapNext_guardOn]

/-- A masked-off probe reads no memory (R58). -/
theorem maskedOffProbe_setMem {seg : Seg} {ea : Addr} {kind : AccessKind} {k : State → Result}
    (hk : ∀ u : State, k (u.setMem mem) = mapNext (·.setMem mem) (k u)) :
    maskedOffProbe (s.setMem mem) seg ea kind k = mapNext (·.setMem mem) (maskedOffProbe s seg ea kind k) := by
  have check : probeCheck (s.setMem mem) seg ea kind = probeCheck s seg ea kind := rfl
  have count : (s.setMem mem).countChoice = s.countChoice.setMem mem := rfl
  simp only [maskedOffProbe, check, setMem_cfg, setMem_freeCount, count, hk]
  cases probeCheck s seg ea kind with
  | none => rfl
  | some stop =>
    cases s.cfg.maskedOffFaults with
    | never => rfl
    | always => exact (mapNext_stop stop).symm
    | either => cases Config.freeChoice s.freeCount <;> simp

/-- The body of a form that stores nothing sees memory only in the eight bytes it loads (R52). -/
theorem formBody_setMem {i : Instr} (noStore : ∀ m scale, memOperand i ≠ some (m, .write, scale))
    (same : ∀ m scale, memOperand i = some (m, .read, scale) →
      mem.readQuad (effAddr s scale i.len m).toNat = s.mem.readQuad (effAddr s scale i.len m).toNat) :
    formBody i (s.setMem mem) = mapNext (·.setMem mem) (formBody i s) := by
  cases i with
  | l10r | l11r => simp only [formBody, moveLow_setMem, retire_setMem]
  | v10r | v11r => simp only [formBody, setMem_low, setMem_high, mergeInto_setMem, retire_setMem]
  | e10r | e11r => simp only [formBody, mergeMasked_setMem, retire_setMem]
  | l11m | v11m | e11m => exact absurd rfl (noStore _ _)
  | l10m =>
    simp only [formBody]
    exact memRead_setMem s mem (same _ _ rfl) fun q => by rw [loadLegacy_setMem, retire_setMem]
  | v10m =>
    simp only [formBody]
    exact memRead_setMem s mem (same _ _ rfl) fun q => by rw [loadClearing_setMem, retire_setMem]
  | e10m k z vvvv d m =>
    have mask : maskOn (s.setMem mem) k = maskOn s k := rfl
    have low : ∀ u : State, maskedOffLow (u.setMem mem) d z = maskedOffLow u d z := fun u => rfl
    simp only [formBody, mask]
    split
    · exact memRead_setMem s mem (same _ _ rfl) fun q => by rw [loadClearing_setMem, retire_setMem]
    · exact maskedOffProbe_setMem s mem fun u => by rw [low, loadClearing_setMem, retire_setMem]

end SetMem

/-- Settles O27: only the quadword a load reads depends on memory. -/
theorem onlyEightBytesRead : Obligations.OnlyEightBytesRead := by
  intro i s mem agree noStore
  have body := formBody_setMem s mem noStore fun m scale h => Memory.readQuad_congr (agree m scale h)
  have mode : modeCheck i (s.setMem mem) = modeCheck i s := rfl
  have enabled : formClass i (s.setMem mem) = formClass i s := by
    unfold formClass
    cases classOf i <;> rfl
  simp only [exec_eq_checks, mode, enabled, body, mapNext_guardOn]

end Sys2Proof.Machine

namespace Sys2Proof.Machine

/-- Settles O38: form by form, each head and tail is read as it was written. -/
theorem decodeEncodeRoundTrip : Obligations.DecodeEncodeRoundTrip := decode_encode

/-- Settles O24: each pair is one guarded body. -/
theorem opcodePairsAgree : Obligations.OpcodePairsAgree :=
  ⟨fun _ _ _ _ => rfl, fun _ _ _ _ _ => rfl, fun _ _ _ _ _ _ => rfl⟩

/-- Settles O49: the mode, the decoder and the text check stop a step in this order. -/
theorem stepRefusals : Obligations.StepRefusals := by
  refine fun s => ⟨fun mode => ?_, fun mode e refused => ?_, fun mode i rest decoded outside => ?_⟩
  · simp only [step, mode]
  · simp only [step, mode, refused]
  · have uncovered : s.text.covers s.rip.toNat i.len = false := by
      rw [← Bool.not_eq_true, covers_iff]
      omega
    simp only [step, mode, decoded, textCheck_of_outside uncovered, guardOn_refuse]

/-! ### Effective addresses in 64-bit mode -/

/-- In 64-bit mode an effective address is the whole sum (R54, R90). -/
theorem truncate_mode64 {s : State} (mode : s.mode = .mode64) (a : Addr) : s.mode.truncate a = a := by rw [mode]; rfl

/-- Settles O36: in 64-bit mode no sum is cut, and only the EVEX class scales a disp8. -/
theorem effectiveAddresses : Obligations.EffectiveAddresses := by
  rintro s len b i index v8 v mode scale -
  simp [effAddr, truncate_mode64 mode, indexValue, dispValue, plainDisp, tuple1Disp]

/-! ### Register forms: the mode and the reserved `vvvv` -/

/-- A register form that is Ready raises no fault (R201). -/
theorem exec_register_ne_fault {i : Instr} {s : State} {f : Fault} (register : memOperand i = none)
    (ready : Ready s i) : exec i s ≠ .fault f := by
  obtain ⟨u, body, -, -⟩ := formBody_of_register s register
  have vvvv : formVvvv i = none := formVvvv_of_ok (by simp [reservedVvvv_of_register register])
  have mode : modeCheck i s ≠ some (.fault f) := by unfold modeCheck; split <;> simp
  have zeroing : formZeroing i ≠ some (.fault f) := by
    unfold formZeroing zeroingCheck
    split
    · split <;> simp
    · simp
  simp [exec_eq_checks, guardOn_fault_cases, mode, zeroing, vvvv, formClass_of_ready ready, body, retire_ne_fault]

/-- Settles O14: past the zeroing check the field is tested before the class; a register form has no such test. -/
theorem reservedVvvvFaults : Obligations.ReservedVvvvFaults := by
  refine ⟨fun i v s reserved wrong form zeroing => ?_, fun i s register ready => ?_⟩
  · have vvvv : formVvvv i = some (.fault .ud) := by simp only [formVvvv, reserved, vvvvCheck_of_ne wrong]
    rw [exec_eq_checks, modeCheck_eq_none.mpr form, formZeroing_of_ok zeroing, vvvv]
    rfl
  · refine exec_register_ne_fault ?_ ready
    obtain ⟨_, _, _, _, rfl | rfl⟩ | ⟨_, _, _, _, _, rfl | rfl⟩ := register <;> rfl

/-- The state put in a 32-bit mode (R93). -/
def State.in32 (s : State) : State := { s with mode := .mode32 }

/-- Below 2^32 a form retires in a 32-bit mode as in 64-bit mode (R27, R93). -/
theorem retire_in32 {s : State} {len : Nat} (mode : s.mode = .mode64) (low : s.rip.toNat + len < 2 ^ 32) :
    retire len s.in32 = mapNext State.in32 (retire len s) := by
  have room : s.rip.toNat + len < 2 ^ s.mode.addrWidth := by
    rw [mode]
    exact low.trans (by decide)
  rw [retire_of_room room, retire_of_room (s := s.in32) low]
  rfl

/-- The body of a register form reads no mode until it retires (R93). -/
theorem formBody_in32 {i : Instr} {s : State} (register : memOperand i = none) (mode : s.mode = .mode64)
    (low : s.rip.toNat + i.len < 2 ^ 32) : formBody i s.in32 = mapNext State.in32 (formBody i s) := by
  cases i with
  | l10r rex d src | l11r rex d src => exact retire_in32 (s := moveLow s (xmm d) (xmm src)) mode low
  | v10r vex3 d s1 s2 | v11r vex3 d s1 s2 =>
    exact retire_in32 (s := mergeInto s (xmm d) (s.low (xmm s2)) (s.high (xmm s1))) mode low
  | e10r k z d s1 s2 | e11r k z d s1 s2 => exact retire_in32 (s := mergeMasked s k z d s1 s2) mode low
  | l10m | l11m | v10m | v11m | e10m | e11m => cases register

/-- Settles O29: no check but the nameability of the form sees the mode. -/
theorem registerFormsModeIndependent : Obligations.RegisterFormsModeIndependent := by
  intro i s register nameable32 mode low
  have form : modeCheck i s = none := by rw [modeCheck_eq_none, HasForm, mode]; rfl
  have form32 : modeCheck i s.in32 = none := modeCheck_eq_none.mpr nameable32
  have enabled : formClass i s.in32 = formClass i s := by
    unfold formClass
    cases classOf i <;> rfl
  change exec i s.in32 = mapNext State.in32 (exec i s)
  simp only [exec_eq_checks, form, form32, enabled, formBody_in32 register mode low, mapNext_guardOn]

end Sys2Proof.Machine

namespace Sys2Proof

/-! ### What the decoder accepts -/

/-- Reading `n` bytes of `bs` leaves `rest` (R104). -/
def Takes (n : Nat) (bs rest : List Byte) : Prop := ∃ used : List Byte, used.length = n ∧ bs = used ++ rest

theorem Takes.zero (bs : List Byte) : Takes 0 bs bs := ⟨[], rfl, rfl⟩

theorem Takes.cons {n : Nat} {bs rest : List Byte} (h : Takes n bs rest) (b : Byte) : Takes (n + 1) (b :: bs) rest := by
  obtain ⟨used, length, rfl⟩ := h
  exact ⟨b :: used, by simp [length], rfl⟩

/-- A disp32 takes four bytes (R90). -/
theorem decodeDisp32_ok {bs rest : List Byte} {v : BitVec 32} (h : decodeDisp32 bs = .ok (v, rest)) :
    Takes 4 bs rest := by
  unfold decodeDisp32 at h
  split at h
  · cases h
    exact ((((Takes.zero _).cons _).cons _).cons _).cons _
  · cases h

/-- A displacement takes its length, and only `mod = 00b` announces none (R90). -/
theorem decodeDisp_ok {mod : BitVec 2} {bs rest : List Byte} {d : Disp} (h : decodeDisp mod bs = .ok (d, rest)) :
    Takes d.len bs rest ∧ (d = .d0 → mod = 0#2) := by
  unfold decodeDisp at h
  split at h
  case isTrue none =>
    cases h
    exact ⟨Takes.zero _, fun _ => none⟩
  split at h
  · split at h
    · cases h
      exact ⟨(Takes.zero _).cons _, nofun⟩
    · cases h
  · split at h
    next taken =>
      cases h
      exact ⟨decodeDisp32_ok taken, nofun⟩
    · cases h

@[simp] theorem getElem_reg4 (x : Bool) (r : BitVec 3) : (reg4 x r)[3] = x := getLsbD_reg4 x r

/-- An index the decoder answers is not number 4, and its extension bit is `x` (R89, R90). -/
theorem indexOf_cases (x : Bool) (s : Sib) :
    indexOf x s = none ∨ ∃ i, indexOf x s = some i ∧ i.reg ≠ 4#4 ∧ i.reg.getLsbD 3 = x := by
  unfold indexOf
  split
  · exact .inl rfl
  next h => exact .inr ⟨_, rfl, h, getLsbD_reg4 ..⟩

/-- The operand is well-formed and needs no extension bit that is not set: `x` for its index, `b` for its base
(R90, R101). -/
def MemOp.Fits (x b : Bool) (m : MemOp) : Prop :=
  m.wf = true ∧ (x = false → m.bitX = false) ∧ (b = false → m.bitB = false)

section Rows

variable (x b : Bool) {lo : BitVec 3} {d : Disp}

/-! The operands of R90's rows fit the extension bits they were assembled with. -/

theorem fits_base (noSib : lo ≠ 4#3) (hasBase : d = .d0 → lo ≠ 5#3) : (MemOp.base (reg4 b lo) d).Fits x b := by
  simp only [MemOp.Fits, MemOp.wf, MemOp.bitX, MemOp.bitB, low3_reg4, getLsbD_reg4, Bool.and_eq_true, Bool.or_eq_true,
    bne_iff_ne]
  tauto

theorem fits_sib (s : Sib) (hasBase : d = .d0 → lo ≠ 5#3) : (MemOp.sib (reg4 b lo) (indexOf x s) d).Fits x b := by
  obtain none | ⟨i, some, ne, bit⟩ := indexOf_cases x s
  · simp [MemOp.Fits, MemOp.wf, MemOp.bitX, MemOp.bitB, low3_reg4, none, indexOk]
    tauto
  · rw [some]
    simp [MemOp.Fits, MemOp.wf, MemOp.bitX, MemOp.bitB, low3_reg4, indexOk, ne, ← bit]
    tauto

theorem fits_sibNoBase (s : Sib) (v : BitVec 32) : (MemOp.sibNoBase (indexOf x s) v).Fits x b := by
  obtain none | ⟨i, some, ne, bit⟩ := indexOf_cases x s
  · rw [none]
    exact ⟨rfl, fun _ => rfl, fun _ => rfl⟩
  · rw [some]
    exact ⟨bne_iff_ne.mpr ne, fun unset => bit.trans unset, fun _ => rfl⟩

end Rows

/-- What `decodeMem` answers fits its extension bits and takes the operand's length (R90, R104). -/
theorem decodeMem_ok {x b : Bool} {mod : BitVec 2} {rm : BitVec 3} {bs rest : List Byte} {m : MemOp}
    (h : decodeMem x b mod rm bs = .ok (m, rest)) : m.Fits x b ∧ Takes m.len bs rest := by
  unfold decodeMem at h
  split at h
  · split at h
    · cases h
    next sb bs' =>
      split at h
      · split at h
        next taken =>
          cases h
          exact ⟨fits_sibNoBase .., (decodeDisp32_ok taken).cons sb⟩
        · cases h
      next hasBase =>
        split at h
        next taken =>
          cases h
          obtain ⟨takes, modZero⟩ := decodeDisp_ok taken
          exact ⟨fits_sib _ _ _ fun d0 base => hasBase ⟨modZero d0, base⟩, by
            rw [MemOp.len, Nat.add_comm]
            exact takes.cons sb⟩
        · cases h
  next noSib =>
    split at h
    · split at h
      next taken =>
        cases h
        exact ⟨⟨rfl, fun _ => rfl, fun _ => rfl⟩, decodeDisp32_ok taken⟩
      · cases h
    next hasBase =>
      split at h
      next taken =>
        cases h
        obtain ⟨takes, modZero⟩ := decodeDisp_ok taken
        exact ⟨fits_base _ _ noSib fun d0 base => hasBase ⟨modZero d0, base⟩, takes⟩
      · cases h

/-- The bytes of a tail: opcode, ModRM and what its operand adds (R104). -/
def Tail.len (t : Tail) : Nat :=
  match t.rm with
  | .reg _ => 2
  | .mem m => m.len + 2

/-- The tail's memory operand, if it has one, fits the extension bits (R101). -/
def Tail.Fits (x b : Bool) (t : Tail) : Prop := ∀ m, t.rm = .mem m → m.Fits x b

/-- A tail's opcode byte says `op11`, its `mod` field the kind of its operand; the operand fits, and the tail takes its
length (R80, R84, R86, R104). -/
theorem decodeTail_ok {x b : Bool} {bs rest : List Byte} {t : Tail} (h : decodeTail x b bs = .ok (t, rest)) :
    ∃ op mb bs', bs = op :: mb :: bs' ∧ t.op11 = (op == 0x11#8) ∧
      ((modRMOf mb).mod ≠ 3#2 → ∃ m, t.rm = .mem m) ∧ t.Fits x b ∧ Takes t.len bs rest := by
  unfold decodeTail at h
  split at h
  next op mb bs' =>
    refine ⟨op, mb, bs', rfl, ?_⟩
    split at h
    · split at h
      next register =>
        cases h
        exact ⟨rfl, fun memory => absurd register memory, nofun, ((Takes.zero _).cons _).cons _⟩
      · split at h
        next m _ taken =>
          cases h
          obtain ⟨fits, takes⟩ := decodeMem_ok taken
          refine ⟨rfl, fun _ => ⟨m, rfl⟩, fun m' eq => ?_, (takes.cons _).cons _⟩
          cases eq
          exact fits
        · cases h
    · cases h
  · split at h <;> cases h
  · cases h

theorem bit3_reg4 (hi : Bool) (lo : BitVec 3) : bit3 (reg4 hi lo) = hi := getLsbD_reg4 hi lo

section Forms

variable {wide r x b : Bool} {t : Tail}

theorem legacyInstr_len : (legacyInstr wide r b t).len = t.len + (2 + wide.toNat) := by
  obtain ⟨op, reg, n | m⟩ := t <;> cases op <;> simp only [legacyInstr, Instr.len, Tail.len] <;> omega

theorem vexInstr_len {v : BitVec 4} : (vexInstr wide r b v t).len = t.len + (2 + wide.toNat) := by
  obtain ⟨op, reg, n | m⟩ := t <;> cases op <;> simp only [vexInstr, Instr.len, Tail.len] <;> omega

/-- The legacy form of a tail; without a REX byte there is no extension bit (R83, R87). -/
theorem legacyInstr_wf (fits : t.Fits x b) (bits : wide = true ∨ (r = false ∧ x = false ∧ b = false)) :
    (legacyInstr wide r b t).wf = true := by
  obtain ⟨op, reg, rm⟩ := t
  cases rm with
  | reg n => cases op <;> simp [legacyInstr, Instr.wf, bit3_reg4] <;> tauto
  | mem m =>
    obtain ⟨wf, noX, noB⟩ := fits m rfl
    cases op <;> simp [legacyInstr, Instr.wf, bit3_reg4, wf] <;> tauto

/-- The VEX form of a tail; the 2-byte VEX bytes have no `X` and no `B` (R83, R94). -/
theorem vexInstr_wf {v : BitVec 4} (fits : t.Fits x b) (bits : wide = true ∨ (x = false ∧ b = false)) :
    (vexInstr wide r b v t).wf = true := by
  obtain ⟨op, reg, rm⟩ := t
  cases rm with
  | reg n => cases op <;> simp [vexInstr, Instr.wf, bit3_reg4] <;> tauto
  | mem m =>
    obtain ⟨wf, noX, noB⟩ := fits m rfl
    cases op <;> simp [vexInstr, Instr.wf, wf] <;> tauto

/-- An EVEX memory form has no `V'`, and a store no `z` (R83, R99). -/
theorem evexInstr_memory {e : Evex} {op : Bool} {reg : BitVec 3} {m : MemOp} {i : Instr}
    (h : evexInstr e ⟨op, reg, .mem m⟩ = .ok i) :
    e.v' = false ∧ (op = true → e.z = false) ∧
      i = if op then .e11m e.k e.vst m (reg5 e.r' e.r reg) else .e10m e.k e.z e.vst (reg5 e.r' e.r reg) m := by
  cases op <;> simp only [evexInstr] at h <;> split_ifs at h <;> simp_all

/-- An EVEX form that is not refused; only zeroing without a mask makes it ill-formed (R83, R99). -/
theorem evexInstr_ok {e : Evex} {i : Instr} (h : evexInstr e t = .ok i) :
    i.len = t.len + 4 ∧ (t.Fits x b → ¬ (e.k = 0#3 ∧ e.z = true) → i.wf = true) := by
  obtain ⟨op, reg, rm⟩ := t
  cases rm with
  | reg n => cases op <;> cases h <;> simp [Instr.wf, Instr.len, Tail.len, imp_iff_not_or]
  | mem m =>
    obtain ⟨-, -, rfl⟩ := evexInstr_memory h
    refine ⟨?_, fun fits zeroing => ?_⟩
    · cases op <;> simp [Instr.len, Tail.len] <;> omega
    · obtain ⟨wf, -, -⟩ := fits m rfl
      cases op with
      | false => simpa [Instr.wf, wf, imp_iff_not_or] using zeroing
      | true => exact wf

end Forms

/-- The form the decoder answers on some bytes: well-formed, and taking exactly its length of them (R104). -/
def Accepted (i : Instr) (bs rest : List Byte) : Prop := i.wf = true ∧ Takes i.len bs rest

theorem decodeLegacy_ok {bs rest : List Byte} {i : Instr} (h : decodeLegacy bs = .ok (i, rest)) (b0 : Byte) :
    Accepted i (b0 :: bs) rest := by
  unfold decodeLegacy at h
  split at h
  · cases h
  · split at h
    · split at h
      next taken =>
        cases h
        obtain ⟨-, -, -, -, -, -, fits, takes⟩ := decodeTail_ok taken
        exact ⟨legacyInstr_wf fits (.inr ⟨rfl, rfl, rfl⟩), legacyInstr_len ▸ (takes.cons _).cons _⟩
      · cases h
    · split at h
      · split at h
        · cases h
        · split at h
          · split at h
            next taken =>
              cases h
              obtain ⟨-, -, -, -, -, -, fits, takes⟩ := decodeTail_ok taken
              exact ⟨legacyInstr_wf fits (.inl rfl), legacyInstr_len ▸ ((takes.cons _).cons _).cons _⟩
            · cases h
          · cases h
      · cases h

theorem decodeVex2_ok {bs rest : List Byte} {i : Instr} (h : decodeVex2 bs = .ok (i, rest)) (b0 : Byte) :
    Accepted i (b0 :: bs) rest := by
  unfold decodeVex2 at h
  split at h
  · cases h
  · split at h
    · split at h
      next taken =>
        cases h
        obtain ⟨-, -, -, -, -, -, fits, takes⟩ := decodeTail_ok taken
        exact ⟨vexInstr_wf fits (.inr ⟨rfl, rfl⟩), vexInstr_len ▸ (takes.cons _).cons _⟩
      · cases h
    · cases h

theorem decodeVex3_ok {bs rest : List Byte} {i : Instr} (h : decodeVex3 bs = .ok (i, rest)) (b0 : Byte) :
    Accepted i (b0 :: bs) rest := by
  unfold decodeVex3 at h
  split at h
  · split at h
    · split at h
      next taken =>
        cases h
        obtain ⟨-, -, -, -, -, -, fits, takes⟩ := decodeTail_ok taken
        exact ⟨vexInstr_wf fits (.inl rfl), vexInstr_len ▸ ((takes.cons _).cons _).cons _⟩
      · cases h
    · cases h
  · cases h

/-- The three EVEX bytes are this instruction's and show no setting that R99 refuses. -/
structure EvexAdmitted (p0 p1 p2 : Byte) : Prop where
  map : p0.extractLsb' 0 2 = 1#2
  pp : p1.extractLsb' 0 2 = 3#2
  reserved : p0.extractLsb' 2 2 = 0#2
  fixed : p1.getLsbD 2 = true
  w : p1.getLsbD 7 = true
  length : p2.extractLsb' 5 2 ≠ 3#2
  broadcast : p2.getLsbD 4 = false
  zeroing : ¬ (p2.extractLsb' 0 3 = 0#3 ∧ p2.getLsbD 7 = true)

theorem evexRefusal_eq_none {p0 p1 p2 : Byte} : evexRefusal p0 p1 p2 = none ↔ EvexAdmitted p0 p1 p2 := by
  constructor
  · intro h
    unfold evexRefusal at h
    split_ifs at h
    constructor <;> simp_all
  · rintro ⟨map, pp, reserved, fixed, w, length, broadcast, zeroing⟩
    simp only [evexRefusal, map, pp, reserved, fixed, w, length, broadcast, zeroing]
    simp

/-- An accepted EVEX form: its three bytes show no refused setting, its tail is read under their extension bits, and
the form is theirs (R97, R98, R99). -/
theorem decodeEvex_ok {bs rest : List Byte} {i : Instr} (h : decodeEvex bs = .ok (i, rest)) :
    ∃ p0 p1 p2 bs' t, bs = p0 :: p1 :: p2 :: bs' ∧ EvexAdmitted p0 p1 p2 ∧
      decodeTail (evexOf p0 p1 p2).x (evexOf p0 p1 p2).b bs' = .ok (t, rest) ∧
      evexInstr (evexOf p0 p1 p2) t = .ok i := by
  unfold decodeEvex at h
  split at h
  next p0 p1 p2 bs' =>
    refine ⟨p0, p1, p2, bs', ?_⟩
    split at h
    · cases h
    next admitted =>
      split at h
      · cases h
      next t _ taken =>
        split at h
        next form =>
          cases h
          exact ⟨t, rfl, evexRefusal_eq_none.mp admitted, taken, form⟩
        · cases h
  · cases h

/-- Whatever the decoder accepts is well-formed and takes its length (R101, R104). -/
theorem decode_ok {bs rest : List Byte} {i : Instr} (h : decode bs = .ok (i, rest)) : Accepted i bs rest := by
  unfold decode at h
  split at h
  · cases h
  · split_ifs at h
    · exact decodeLegacy_ok h _
    · exact decodeVex2_ok h _
    · exact decodeVex3_ok h _
    · obtain ⟨p0, p1, p2, bs', t, rfl, admitted, taken, form⟩ := decodeEvex_ok h
      obtain ⟨-, -, -, -, -, -, fits, takes⟩ := decodeTail_ok taken
      obtain ⟨length, wf⟩ := evexInstr_ok form
      exact ⟨wf fits admitted.zeroing, length ▸ (((takes.cons _).cons _).cons _).cons _⟩

/-- Settles O39: the encoder's bounds on a length are those of every form. -/
theorem decodedFormsAreWellFormed : Obligations.DecodedFormsAreWellFormed := by
  intro bs rest i h
  obtain ⟨wf, takes⟩ := decode_ok h
  obtain ⟨-, atLeast, atMost⟩ := encode_length i
  exact ⟨wf, atLeast, atMost, takes⟩

end Sys2Proof

namespace Sys2Proof

/-! ### What the decoder refuses -/

/-- Bytes the decoder accepts no form of are refused by some name. -/
theorem exists_error_of_ne_ok {bs : List Byte} (h : ∀ i rest, decode bs ≠ .ok (i, rest)) :
    ∃ e, decode bs = .error e := by
  cases answer : decode bs with
  | error e => exact ⟨e, rfl⟩
  | ok r => exact absurd answer (h r.1 r.2)

/-- A REX byte is no escape byte (R87). -/
theorem ne_escape_of_rex {p : Byte} (rex : p.extractLsb' 4 4 = 4#4) : p ≠ 0x0F#8 := by
  rintro rfl
  exact absurd rex (by decide)

/-- Settles O43: only the four class bytes begin an instruction, and only `0F` or one REX byte follows `F2`. -/
theorem otherPrefixesRefused : Obligations.OtherPrefixesRefused := by
  refine ⟨fun p bs hF2 hC5 hC4 h62 => ?_, fun p bs escape rex => ?_, fun r p bs rex escape => ?_⟩
  · exact ⟨prefixRefusal p, by simp only [decode, if_neg hF2, if_neg hC5, if_neg hC4, if_neg h62]⟩
  · exact ⟨prefixRefusal p, by simp only [decode_F2, decodeLegacy, if_neg escape, if_neg rex]⟩
  · exact ⟨prefixRefusal p, by
      simp only [decode_F2, decodeLegacy, if_neg (ne_escape_of_rex rex), if_pos rex, if_neg escape]⟩

/-- Where an EVEX string is accepted, its EVEX bytes are admitted, and in a memory form `V'` is stored as 1 and a
store has no `z` (R99). -/
theorem decode_evex_ok {p0 p1 p2 op mb : Byte} {bs rest : List Byte} {i : Instr}
    (h : decode (0x62#8 :: p0 :: p1 :: p2 :: op :: mb :: bs) = .ok (i, rest)) :
    EvexAdmitted p0 p1 p2 ∧
      (mb.extractLsb' 6 2 ≠ 3#2 → p2.getLsbD 3 = true ∧ (op = 0x11#8 → p2.getLsbD 7 = false)) := by
  rw [decode_62] at h
  obtain ⟨_, _, _, _, ⟨op11, reg, rm⟩, bytes, admitted, taken, form⟩ := decodeEvex_ok h
  cases bytes
  obtain ⟨_, _, _, bytes, opcode, operand, -, -⟩ := decodeTail_ok taken
  cases bytes
  refine ⟨admitted, fun memory => ?_⟩
  obtain ⟨m, rfl⟩ := operand memory
  obtain ⟨v', z, -⟩ := evexInstr_memory form
  exact ⟨by simpa [evexOf] using v', fun store => z (opcode.trans (beq_iff_eq.mpr store))⟩

/-- Settles O42: an accepted string has none of the settings. -/
theorem evexSettingsRefused : Obligations.EvexSettingsRefused := by
  intro p0 p1 p2 op mb bs refused
  refine exists_error_of_ne_ok fun i rest h => ?_
  obtain ⟨⟨-, -, reserved, fixed, w, length, broadcast, zeroing⟩, memory⟩ := decode_evex_ok h
  rcases refused with w0 | length3 | b | reserved' | fixed0 | ⟨z, k⟩ | ⟨z, store, mod⟩ | ⟨v', mod⟩
  · exact Bool.false_ne_true (w0.symm.trans w)
  · exact length length3
  · exact Bool.false_ne_true (broadcast.symm.trans b)
  · exact reserved' reserved
  · exact Bool.false_ne_true (fixed0.symm.trans fixed)
  · exact zeroing ⟨k, z⟩
  · exact Bool.false_ne_true (((memory mod).2 store).symm.trans z)
  · exact Bool.false_ne_true (v'.symm.trans (memory mod).1)

/-! ### The bytes before the opcode at every value of their fields -/

/-- The REX byte (R88). -/
theorem rex_fields (w r x b : BitVec 1) (p : Byte) (hp : p = 4#4 ++ w ++ r ++ x ++ b) :
    p.extractLsb' 4 4 = 4#4 ∧ p.getLsbD 2 = r.getLsbD 0 ∧ p.getLsbD 1 = x.getLsbD 0 ∧ p.getLsbD 0 = b.getLsbD 0 := by
  subst hp
  revert w r x b
  decide

/-- The byte of `vvvv`: the last VEX byte and the EVEX byte P1 (R94, R95, R97). -/
theorem vvvvByte_fields (hi : BitVec 1) (v : BitVec 4) (l : BitVec 1) (pp : BitVec 2) (p : Byte)
    (hp : p = hi ++ v ++ l ++ pp) :
    p.extractLsb' 0 2 = pp ∧ p.getLsbD 2 = l.getLsbD 0 ∧ p.extractLsb' 3 4 = v ∧ p.getLsbD 7 = hi.getLsbD 0 := by
  subst hp
  revert hi v l pp
  decide

/-- The byte of the opcode map of the 3-byte VEX layout (R95). -/
theorem vexMapByte_fields (r x b : BitVec 1) (map : BitVec 5) (p : Byte) (hp : p = r ++ x ++ b ++ map) :
    p.extractLsb' 0 5 = map ∧ p.getLsbD 7 = r.getLsbD 0 ∧ p.getLsbD 6 = x.getLsbD 0 ∧ p.getLsbD 5 = b.getLsbD 0 := by
  subst hp
  revert r x b map
  decide

/-- The EVEX byte P0 (R97). -/
theorem evexP0_fields (r x b r' : BitVec 1) (reserved map : BitVec 2) (p : Byte)
    (hp : p = r ++ x ++ b ++ r' ++ reserved ++ map) :
    p.extractLsb' 0 2 = map ∧ p.extractLsb' 2 2 = reserved ∧ p.getLsbD 7 = r.getLsbD 0 ∧ p.getLsbD 6 = x.getLsbD 0 ∧
      p.getLsbD 5 = b.getLsbD 0 ∧ p.getLsbD 4 = r'.getLsbD 0 := by
  subst hp
  revert r x b r' reserved map
  decide

/-- The EVEX byte P2 (R97). -/
theorem evexP2_fields (z : BitVec 1) (ll : BitVec 2) (b v' : BitVec 1) (k : BitVec 3) (p : Byte)
    (hp : p = z ++ ll ++ b ++ v' ++ k) :
    p.extractLsb' 5 2 = ll ∧ p.getLsbD 4 = b.getLsbD 0 ∧ p.extractLsb' 0 3 = k ∧ p.getLsbD 7 = z.getLsbD 0 ∧
      p.getLsbD 3 = v'.getLsbD 0 := by
  subst hp
  revert z ll b v' k
  decide

/-- The low four bits of P2 are `V'` and `aaa` (R97). -/
theorem evexP2_low (z : BitVec 1) (ll : BitVec 2) (b : BitVec 1) (low : BitVec 4) :
    z ++ ll ++ b ++ low = z ++ ll ++ b ++ low.extractLsb' 3 1 ++ low.extractLsb' 0 3 := by
  revert z ll b low
  decide

/-! ### Bits the decoder ignores -/

/-- The decoder reads three bits of a REX byte (R88). -/
theorem decode_rex_congr {p q : Byte} (bs : List Byte) (hp : p.extractLsb' 4 4 = 4#4) (hq : q.extractLsb' 4 4 = 4#4)
    (r : p.getLsbD 2 = q.getLsbD 2) (x : p.getLsbD 1 = q.getLsbD 1) (b : p.getLsbD 0 = q.getLsbD 0) :
    decode (0xF2#8 :: p :: bs) = decode (0xF2#8 :: q :: bs) := by
  simp only [decode_F2, decodeLegacy, if_neg (ne_escape_of_rex hp), if_neg (ne_escape_of_rex hq), if_pos hp, if_pos hq,
    r, x, b]

/-- The decoder reads `L'L` only to refuse 11b (R98, R99). -/
theorem decode_evex_congr {p0 p1 p q : Byte} (bs : List Byte) (hp : p.extractLsb' 5 2 ≠ 3#2)
    (hq : q.extractLsb' 5 2 ≠ 3#2) (b : p.getLsbD 4 = q.getLsbD 4) (k : p.extractLsb' 0 3 = q.extractLsb' 0 3)
    (z : p.getLsbD 7 = q.getLsbD 7) (v' : p.getLsbD 3 = q.getLsbD 3) :
    decode (0x62#8 :: p0 :: p1 :: p :: bs) = decode (0x62#8 :: p0 :: p1 :: q :: bs) := by
  simp only [decode_62, decodeEvex, evexRefusal, evexOf, if_neg hp, if_neg hq, b, k, z, v']

/-- Settles O41: `REX.W` is none of the bits read. -/
theorem rexWIgnored : Obligations.RexWIgnored := by
  intro w w' rxb bs
  apply decode_rex_congr <;> revert w w' rxb <;> decide

/-- Settles O40: the decoder reads no ignored bit but to refuse `L'L = 11b`. -/
theorem ignoredVexFields : Obligations.IgnoredVexFields := by
  refine ⟨fun r v l l' pp bs => ?_, fun p w w' l l' v pp bs => ?_, fun p0 p1 z b ll ll' low bs hll hll' => ?_⟩
  · obtain ⟨hpp, -, hv, hr⟩ := vvvvByte_fields r v l pp _ rfl
    obtain ⟨hpp', -, hv', hr'⟩ := vvvvByte_fields r v l' pp _ rfl
    simp only [decode_C5, decodeVex2, hpp, hv, hr, hpp', hv', hr']
  · obtain ⟨hpp, -, hv, -⟩ := vvvvByte_fields w v l pp _ rfl
    obtain ⟨hpp', -, hv', -⟩ := vvvvByte_fields w' v l' pp _ rfl
    simp only [decode_C4, decodeVex3, hpp, hv, hpp', hv']
  · obtain ⟨length, hb, hk, hz, hv'⟩ := evexP2_fields z ll b _ _ _ (evexP2_low z ll b low)
    obtain ⟨length', hb', hk', hz', hv''⟩ := evexP2_fields z ll' b _ _ _ (evexP2_low z ll' b low)
    exact decode_evex_congr bs (length.trans_ne hll) (length'.trans_ne hll') (hb.trans hb'.symm) (hk.trans hk'.symm)
      (hz.trans hz'.symm) (hv'.trans hv''.symm)

/-! ### Register forms -/

section RegisterForms

variable {p q p0 p1 p2 : Byte} {bs rest : List Byte} {t : Tail} {i : Instr}

/-! What the bytes of a class decode to, from their tail (R87, R94, R95, R97). -/

theorem decode_escape (ht : decodeTail false false bs = .ok (t, rest)) :
    decode (0xF2#8 :: 0x0F#8 :: bs) = .ok (legacyInstr false false false t, rest) := by
  simp only [decode_F2, decodeLegacy, if_true, ht]

theorem decode_rex (rex : p.extractLsb' 4 4 = 4#4) (ht : decodeTail (p.getLsbD 1) (p.getLsbD 0) bs = .ok (t, rest)) :
    decode (0xF2#8 :: p :: 0x0F#8 :: bs) = .ok (legacyInstr true (p.getLsbD 2) (p.getLsbD 0) t, rest) := by
  simp only [decode_F2, decodeLegacy, if_neg (ne_escape_of_rex rex), if_pos rex, if_true, ht]

theorem decode_vex2 (pp : p.extractLsb' 0 2 = 3#2) (ht : decodeTail false false bs = .ok (t, rest)) :
    decode (0xC5#8 :: p :: bs) = .ok (vexInstr false (!p.getLsbD 7) false (p.extractLsb' 3 4) t, rest) := by
  simp only [decode_C5, decodeVex2, if_pos pp, ht]

theorem decode_vex3 (map : p.extractLsb' 0 5 = 1#5) (pp : q.extractLsb' 0 2 = 3#2)
    (ht : decodeTail (!p.getLsbD 6) (!p.getLsbD 5) bs = .ok (t, rest)) :
    decode (0xC4#8 :: p :: q :: bs) =
      .ok (vexInstr true (!p.getLsbD 7) (!p.getLsbD 5) (q.extractLsb' 3 4) t, rest) := by
  simp only [decode_C4, decodeVex3, if_pos (And.intro map pp), ht]

theorem decode_evex (admitted : EvexAdmitted p0 p1 p2)
    (ht : decodeTail (evexOf p0 p1 p2).x (evexOf p0 p1 p2).b bs = .ok (t, rest))
    (form : evexInstr (evexOf p0 p1 p2) t = .ok i) :
    decode (0x62#8 :: p0 :: p1 :: p2 :: bs) = .ok (i, rest) := by
  simp only [decode_62, decodeEvex, evexRefusal_eq_none.mpr admitted, ht, form]

end RegisterForms

/-- A bit stored as it is, and one stored inverted (R87, R94). -/
theorem ofBool_bit (r : BitVec 1) : BitVec.ofBool (r.getLsbD 0) = r := by revert r; decide

theorem ofBool_inverted (r : BitVec 1) : BitVec.ofBool (!(~~~r).getLsbD 0) = r := by revert r; decide

theorem getLsbD_zero_eq_beq (z : BitVec 1) : z.getLsbD 0 = (z == 1#1) := by revert z; decide

/-- Settles O44: the tail is that of a register form, and each class puts its bits above the tail's three. -/
theorem registerFormsDecode : Obligations.RegisterFormsDecode := by
  intro op11 reg rm rest tail
  have tail_ok (x b : Bool) : decodeTail x b tail = .ok (⟨op11, reg, .reg rm⟩, rest) := decodeTail_register ..
  refine ⟨?_, fun w r x b => ?_, fun r l v => ?_, fun r x b w l v => ?_, fun r x b r' v' z v ll k hll zeroing => ?_⟩
  · rw [decode_escape (tail_ok ..)]
    cases op11 <;> rfl
  · obtain ⟨rex, hr, -, hb⟩ := rex_fields w r x b _ rfl
    rw [decode_rex rex (tail_ok ..), hr, hb]
    cases op11 <;> simp only [legacyInstr, reg4, ofBool_bit] <;> rfl
  · obtain ⟨pp, -, hv, hr⟩ := vvvvByte_fields (~~~r) (~~~v) l 3#2 _ rfl
    rw [decode_vex2 pp (tail_ok ..), hr, hv]
    cases op11 <;> simp only [vexInstr, reg4, ofBool_inverted, BitVec.not_not] <;> rfl
  · obtain ⟨map, hr, -, hb⟩ := vexMapByte_fields (~~~r) (~~~x) (~~~b) 1#5 _ rfl
    obtain ⟨pp, -, hv, -⟩ := vvvvByte_fields w (~~~v) l 3#2 _ rfl
    rw [decode_vex3 map pp (tail_ok ..), hr, hb, hv]
    cases op11 <;> simp only [vexInstr, reg4, ofBool_inverted, BitVec.not_not] <;> rfl
  · obtain ⟨map, reserved, hr, hx, hb, hr'⟩ := evexP0_fields (~~~r) (~~~x) (~~~b) (~~~r') 0#2 1#2 _ rfl
    obtain ⟨pp, fixed, hv, w⟩ := vvvvByte_fields 1#1 (~~~v) 1#1 3#2 _ rfl
    obtain ⟨length, broadcast, hk, hz, hv'⟩ := evexP2_fields z ll 0#1 (~~~v') k _ rfl
    refine decode_evex ⟨map, pp, reserved, fixed, w, length.trans_ne hll, broadcast, ?_⟩ (tail_ok ..) ?_
    · rw [hk, hz]
      rintro ⟨rfl, set⟩
      obtain ne | rfl := zeroing
      · exact ne rfl
      · cases set
    · cases op11 <;>
        simp only [evexInstr, evexOf, reg5, hr, hx, hb, hr', hv, hv', hk, hz.trans (getLsbD_zero_eq_beq z),
          ofBool_inverted, BitVec.not_not] <;>
        rfl

/-! ### Addressing forms -/

section Addressing

variable {x b : Bool} {mod : BitVec 2} {rm : BitVec 3} {bs rest : List Byte}

/-! The rows of R90 by their number of registers, whatever bytes stand for the displacement. -/

theorem decodeMem_base {d : Disp} (noSib : rm ≠ 4#3) (hasBase : ¬ (mod = 0#2 ∧ rm = 5#3))
    (hd : decodeDisp mod bs = .ok (d, rest)) : decodeMem x b mod rm bs = .ok (.base (reg4 b rm) d, rest) := by
  simp only [decodeMem, if_neg noSib, if_neg hasBase, hd]

theorem decodeMem_ripRel {v : BitVec 32} (hv : decodeDisp32 bs = .ok (v, rest)) :
    decodeMem x b 0#2 5#3 bs = .ok (.ripRel v, rest) := by
  simp [decodeMem, hv]

theorem decodeMem_sib {scale : BitVec 2} {index base : BitVec 3} {d : Disp} (hasBase : ¬ (mod = 0#2 ∧ base = 5#3))
    (hd : decodeDisp mod bs = .ok (d, rest)) :
    decodeMem x b mod 4#3 (sibByte scale index base :: bs) =
      .ok (.sib (reg4 b base) (indexOf x ⟨scale, index, base⟩) d, rest) := by
  simp only [decodeMem, if_true, sibOf_sibByte, if_neg hasBase, hd]

theorem decodeMem_sibNoBase {scale : BitVec 2} {index : BitVec 3} {v : BitVec 32}
    (hv : decodeDisp32 bs = .ok (v, rest)) :
    decodeMem x b 0#2 4#3 (sibByte scale index 5#3 :: bs) =
      .ok (.sibNoBase (indexOf x ⟨scale, index, 5#3⟩) v, rest) := by
  simp only [decodeMem, if_true, sibOf_sibByte, and_self, hv]

/-! The displacements of the three values of `mod` (R90). -/

theorem decodeDisp_none : decodeDisp 0#2 bs = .ok (.d0, bs) := rfl

theorem decodeDisp_byte (v : Byte) : decodeDisp 1#2 (v :: bs) = .ok (.d8 v, bs) := rfl

theorem decodeDisp_quad (v0 v1 v2 v3 : Byte) :
    decodeDisp 2#2 (v0 :: v1 :: v2 :: v3 :: bs) = .ok (.d32 (v3 ++ v2 ++ v1 ++ v0), bs) := rfl

end Addressing

/-- Settles O45, row by row. -/
theorem addressingFormsDecode : Obligations.AddressingFormsDecode := by
  intro x b rm v v0 v1 v2 v3 scale index base bs disp32 bn xn
  have mod1 {r : BitVec 3} : ¬ (1#2 = 0#2 ∧ r = 5#3) := fun h => absurd h.1 (by decide)
  have mod2 {r : BitVec 3} : ¬ (2#2 = 0#2 ∧ r = 5#3) := fun h => absurd h.1 (by decide)
  exact ⟨fun noSib noRip => decodeMem_base noSib (fun h => noRip h.2) decodeDisp_none,
    decodeMem_ripRel rfl,
    fun noSib => decodeMem_base noSib mod1 (decodeDisp_byte v),
    fun noSib => decodeMem_base noSib mod2 (decodeDisp_quad v0 v1 v2 v3),
    fun hasBase => decodeMem_sib (fun h => hasBase h.2) decodeDisp_none,
    decodeMem_sibNoBase rfl,
    decodeMem_sib mod1 (decodeDisp_byte v),
    decodeMem_sib mod2 (decodeDisp_quad v0 v1 v2 v3)⟩

end Sys2Proof

namespace Sys2Proof.Machine

/-! ### The frames of the writes -/

section Frames

variable {s : State} {r : Addr}

theorem onlyReg_moveLow (d src : BitVec 5) : OnlyReg d s ((moveLow s d src).setRip r) :=
  ⟨controlKept_moveLow, fun _ ne => moveLow_ne s src ne, fun _ => rfl, rfl⟩

theorem onlyReg_loadLegacy (d : BitVec 5) (q : Quad) : OnlyReg d s ((loadLegacy s d q).setRip r) :=
  ⟨controlKept_loadLegacy, fun _ ne => loadLegacy_ne s q ne, fun _ => rfl, rfl⟩

theorem onlyReg_loadClearing (d : BitVec 5) (q : Quad) : OnlyReg d s ((loadClearing s d q).setRip r) :=
  ⟨controlKept_loadClearing, fun _ ne => loadClearing_ne s q ne, fun _ => rfl, rfl⟩

theorem onlyQuad_writeQuad (ea : Addr) (v : Quad) :
    OnlyQuad ea s ((s.setMem (s.mem.writeQuad ea.toNat v)).setRip r) :=
  ⟨controlKept_setMem, fun _ => rfl, fun _ outside => Memory.read_writeQuad_outside v outside, rfl⟩

end Frames

/-! ### Active loads and stores, class by class -/

/-- What a load of each class writes: a legacy load zeroes bits 127:64 of its destination, the others every bit above 63
(R132, R152, R173). -/
def loadInto (s : State) (d : BitVec 5) (q : Quad) : Class → State
  | .legacy => loadLegacy s d q
  | .vex | .evex => loadClearing s d q

section Load

variable (s : State) (d : BitVec 5) (q : Quad) (c : Class)

@[simp] theorem low_loadInto : (loadInto s d q c).low d = q := by
  cases c with
  | legacy => exact low_loadLegacy s d q
  | vex | evex => exact low_loadClearing s d q

@[simp] theorem high_loadInto : (loadInto s d q c).high d = 0#64 := by
  cases c with
  | legacy => exact high_loadLegacy s d q
  | vex | evex => exact high_loadClearing s d q

theorem loadInto_clears (hc : c ≠ .legacy) {j : Nat} (h : 64 ≤ j) (hm : j < s.cfg.maxVl.bits) :
    ((loadInto s d q c).vreg d).getLsbD j = false := by
  cases c with
  | legacy => exact absurd rfl hc
  | vex | evex => exact loadClearing_clears s d q h hm

theorem onlyReg_loadInto {r : Addr} : OnlyReg d s ((loadInto s d q c).setRip r) := by
  cases c with
  | legacy => exact onlyReg_loadLegacy d q
  | vex | evex => exact onlyReg_loadClearing d q

end Load

section Active

variable {i : Instr} {m : MemOp} {scale : Addr} {s t : State}

/-- An active load that completes has put the quadword at its effective address in its destination (R137). -/
theorem exec_load_next (operand : memOperand i = some (m, .read, scale)) (on : active s i = true)
    (h : exec i s = .next t) :
    ∃ d, destOf i = some d ∧ t = (loadInto s d (s.mem.readQuad (effAddr s scale i.len m).toNat) (classOf i)).setRip
      (s.rip + BitVec.ofNat 64 i.len) := by
  cases i with
  | l10m =>
    cases operand
    obtain ⟨-, -, -, -, ht⟩ := (exec_l10m_next rfl rfl).mp h
    exact ⟨_, rfl, ht⟩
  | v10m =>
    cases operand
    obtain ⟨-, -, -, -, -, ht⟩ := (exec_v10m_next rfl rfl).mp h
    exact ⟨_, rfl, ht⟩
  | e10m =>
    cases operand
    obtain ⟨-, -, -, -, h⟩ := (exec_e10m_next rfl rfl).mp h
    rw [if_pos (show maskOn s _ = true from on)] at h
    obtain ⟨-, -, ht⟩ := h
    exact ⟨_, rfl, ht⟩
  | l10r | l11r | l11m | v10r | v11r | v11m | e10r | e11r | e11m => cases operand

/-- An active store that completes has written the low quadword of its source at its effective address (R137). -/
theorem exec_store_next (operand : memOperand i = some (m, .write, scale)) (on : active s i = true)
    (h : exec i s = .next t) :
    ∃ src, storeSource i = some src ∧ t = (s.setMem (s.mem.writeQuad (effAddr s scale i.len m).toNat
      (s.low src))).setRip (s.rip + BitVec.ofNat 64 i.len) := by
  cases i with
  | l11m =>
    cases operand
    obtain ⟨-, -, -, -, ht⟩ := (exec_l11m_next rfl rfl).mp h
    exact ⟨_, rfl, ht⟩
  | v11m =>
    cases operand
    obtain ⟨-, -, -, -, -, ht⟩ := (exec_v11m_next rfl rfl).mp h
    exact ⟨_, rfl, ht⟩
  | e11m =>
    cases operand
    obtain ⟨-, -, -, h⟩ := (exec_e11m_next rfl rfl).mp h
    rw [if_pos (show maskOn s _ = true from on)] at h
    obtain ⟨-, -, ht⟩ := h
    exact ⟨_, rfl, ht⟩
  | l10r | l10m | l11r | v10r | v10m | v11r | e10r | e10m | e11r => cases operand

end Active

/-! ### The legacy forms, and the VEX store beside theirs -/

/-- Settles O1: both opcodes retire in the state `moveLow` leaves. -/
theorem legacyRegisterMove : Obligations.LegacyRegisterMove := by
  intro rex d src i s hi form ready room
  have run : exec i s = .next ((moveLow s (xmm d) (xmm src)).setRip (s.rip + BitVec.ofNat 64 i.len)) := by
    rcases hi with rfl | rfl
    · exact exec_l10r_next.mpr ⟨form, ready, room, rfl⟩
    · exact exec_l11r_next.mpr ⟨form, ready, room, rfl⟩
  exact ⟨_, run, low_moveLow s _ _, fun _ high => moveLow_keeps s _ _ high, rfl, onlyReg_moveLow _ _⟩

/-- Settles O2: the form retires in the state `loadLegacy` leaves. -/
theorem legacyLoad : Obligations.LegacyLoad := by
  intro rex d m i ea s hi hea form ready room admitted
  exact ⟨_, (exec_l10m_next hi hea).mpr ⟨form, ready, admitted, room, rfl⟩, low_loadLegacy s _ _, high_loadLegacy s _ _,
    fun _ above => loadLegacy_keeps s _ _ above, rfl, onlyReg_loadLegacy _ _⟩

/-- Settles O3: both stores retire with the quadword written, and an admitted access ends within memory. -/
theorem legacyAndVexStore : Obligations.LegacyAndVexStore := by
  intro wide m src i ea s hi hea form ready room admitted
  have run : exec i s = .next ((s.setMem (s.mem.writeQuad ea.toNat (s.low (xmm src)))).setRip
      (s.rip + BitVec.ofNat 64 i.len)) := by
    rcases hi with hi | hi
    · exact (exec_l11m_next hi hea).mpr ⟨form, ready, admitted, room, rfl⟩
    · exact (exec_v11m_next hi hea).mpr ⟨form, rfl, ready, admitted, room, rfl⟩
  exact ⟨_, run, fun wf j hj => Memory.read_writeQuad_inside _ wf (admitted_end admitted) j hj, rfl,
    onlyQuad_writeQuad ea _⟩

/-! ### Every memory form with its mask on -/

/-- Settles O8: an active load is `loadInto` of its class, an active store is `writeQuad`. -/
theorem loadsAndStoresByClass : Obligations.LoadsAndStoresByClass := by
  rintro i m kind scale _ s t operand rfl on h
  cases kind with
  | read =>
    obtain ⟨d, dest, rfl⟩ := exec_load_next operand on h
    obtain ⟨control, -, memory, freeCount⟩ := onlyReg_loadInto s d
      (s.mem.readQuad (effAddr s scale i.len m).toNat) (classOf i) (r := s.rip + BitVec.ofNat 64 i.len)
    refine ⟨control, freeCount, fun _ => ⟨memory, d, dest, low_loadInto .., fun legacy => ?_,
      fun notLegacy _ above below => loadInto_clears s d _ _ notLegacy above below⟩, nofun⟩
    rw [legacy]
    exact ⟨high_loadLegacy s d _, fun _ above => loadLegacy_keeps s d _ above⟩
  | write =>
    have admitted := exec_next_admitted operand on h
    obtain ⟨src, source, rfl⟩ := exec_store_next operand on h
    obtain ⟨control, vectors, memory, freeCount⟩ := onlyQuad_writeQuad (s := s)
      (r := s.rip + BitVec.ofNat 64 i.len) (effAddr s scale i.len m) (s.low src)
    exact ⟨control, freeCount, nofun, fun _ => ⟨vectors, memory, src, source,
      fun wf j hj => Memory.read_writeQuad_inside _ wf (admitted_end admitted) j hj⟩⟩

/-- Settles O31: the load reads back the quadword `writeQuad` wrote at its address. -/
theorem storeThenLoadReturnsValue : Obligations.StoreThenLoadReturnsValue := by
  intro st ld m m' scale scale' ea d v s t u wf store load storeOn loadOn value dest hea hea' hst hld
  have fits : ea.toNat + 8 ≤ 2 ^ 64 := hea ▸ admitted_end (exec_next_admitted store storeOn hst)
  obtain ⟨src, source, ht⟩ := exec_store_next store storeOn hst
  obtain ⟨d', dest', hu⟩ := exec_load_next load loadOn hld
  have stored : s.low src = v := by
    rcases value with ⟨w, src', ⟨rfl, rfl⟩ | ⟨k, rfl, rfl⟩⟩ | ⟨k, vst, src', rfl, rfl⟩ <;> cases source <;> rfl
  have same : d' = d := Option.some.inj (dest'.symm.trans dest)
  have loaded : t.mem.readQuad ea.toNat = v := by
    rw [ht, ← hea, stored]
    exact Memory.readQuad_writeQuad v wf fits
  rw [← hea', loaded, same] at hu
  rw [hu]
  exact ⟨low_loadInto .., high_loadInto ..⟩

/-! ### The next instruction, and addresses in a 32-bit mode -/

/-- Settles O20: a form's last act is to retire. -/
theorem nextInstruction : Obligations.NextInstruction := by
  intro i s t h
  obtain ⟨-, room, u, -, rfl⟩ := exec_next h
  exact ⟨rfl, room⟩

/-- In a 32-bit mode the sum of an effective address is that of 64-bit mode, cut to 32 bits (R54, R136). -/
theorem effAddr_mode32 {s : State} (mode : s.mode = .mode32) (scale : Addr) (len : Nat) (m : MemOp) :
    effAddr s scale len m = Mode.mode32.truncate (effAddr { s with mode := .mode64 } scale len m) := by
  unfold effAddr
  rw [mode]
  rfl

theorem toNat_truncate_mode32 (a : Addr) : (Mode.mode32.truncate a).toNat = a.toNat % 2 ^ 32 := by
  simp only [Mode.truncate, BitVec.toNat_setWidth]
  omega

/-- Settles O37, from the cut of the sum. -/
theorem addressesIn32BitModes : Obligations.AddressesIn32BitModes := by
  intro s scale len m mode
  rw [effAddr_mode32 mode, toNat_truncate_mode32]

end Sys2Proof.Machine

namespace Sys2Proof.Machine

/-! ### The VEX register merge and load -/

theorem onlyReg_mergeInto {s : State} {r : Addr} (d : BitVec 5) (a b : Quad) :
    OnlyReg d s ((mergeInto s d a b).setRip r) :=
  ⟨controlKept_mergeInto, fun _ ne => mergeInto_ne s a b ne, fun _ => rfl, rfl⟩

/-- The VEX register forms of both opcodes complete alike (R151, R153). -/
theorem exec_vexRegister_next {i : Instr} {s t : State} {vex3 : Bool} {d s1 s2 : BitVec 4}
    (hi : i = .v10r vex3 d s1 s2 ∨ i = .v11r vex3 d s1 s2) : exec i s = .next t ↔
    HasForm s i ∧ Ready s i ∧ RipRoom s i ∧
      t = (mergeInto s (xmm d) (s.low (xmm s2)) (s.high (xmm s1))).setRip (s.rip + BitVec.ofNat 64 i.len) := by
  rcases hi with rfl | rfl
  · exact exec_v10r_next
  · exact exec_v11r_next

/-- Settles O4: both opcodes retire in the state `mergeInto` leaves. -/
theorem vexRegisterMerge : Obligations.VexRegisterMerge := by
  intro vex3 d s1 s2 i s hi form ready room
  exact ⟨_, (exec_vexRegister_next hi).mpr ⟨form, ready, room, rfl⟩, low_mergeInto s _ _ _, high_mergeInto s _ _ _,
    fun _ above below => mergeInto_clears s _ _ _ above below, rfl, onlyReg_mergeInto _ _ _⟩

/-- Settles O5: the form retires in the state `loadClearing` leaves. -/
theorem vexLoad : Obligations.VexLoad := by
  intro vex3 d m i ea s hi hea form ready room admitted
  exact ⟨_, (exec_v10m_next hi hea).mpr ⟨form, rfl, ready, admitted, room, rfl⟩, low_loadClearing s _ _,
    fun _ above below => loadClearing_clears s _ _ above below, rfl, onlyReg_loadClearing _ _⟩

/-! ### Moves of one register onto itself -/

/-- Writing a register's own slice back changes nothing. -/
@[simp] theorem setVslice_vslice (s : State) (d : BitVec 5) (lo n : Nat) :
    s.setVslice d lo (s.vslice d lo n) = s := by
  rw [State.setVslice, State.vslice, setSlice_self, State.vreg, Vector.set_getElem_self]

/-- A legacy move of a register onto itself writes nothing new (R155). -/
@[simp] theorem moveLow_self (s : State) (d : BitVec 5) : moveLow s d d = s := setVslice_vslice s d 0 64

/-- Merging a register's own two quadwords into it keeps its low 128 bits (R155). -/
theorem mergeInto_self_keeps (s : State) (d : BitVec 5) {j : Nat} (h : j < 128) :
    ((mergeInto s d (s.low d) (s.high d)).vreg d).getLsbD j = (s.vreg d).getLsbD j := by
  rw [getLsbD_mergeInto _ _ _ _ _ (by omega)]
  by_cases inLow : j < 64
  · simp [inLow, State.low, State.vslice]
  · have inHigh : j - 64 < 64 := by omega
    have offset : 64 + (j - 64) = j := by omega
    simp [inLow, h, inHigh, offset, State.high, State.vslice]

/-- Settles O23: `mergeInto` clears above 127 whatever its sources are, and `moveLow` onto itself is no change. -/
theorem selfMoves : Obligations.SelfMoves := by
  refine fun wide n i s t run => ⟨fun vex => ?_, fun legacy => ?_⟩
  · obtain ⟨-, -, -, rfl⟩ := (exec_vexRegister_next vex).mp run
    exact ⟨fun _ low => mergeInto_self_keeps s _ low, fun _ above below => mergeInto_clears s _ _ _ above below⟩
  · rcases legacy with rfl | rfl
    · obtain ⟨-, -, -, rfl⟩ := exec_l10r_next.mp run
      rw [moveLow_self]
    · obtain ⟨-, -, -, rfl⟩ := exec_l11r_next.mp run
      rw [moveLow_self]

end Sys2Proof.Machine

namespace Sys2Proof.Machine

/-! ### The EVEX register merge -/

theorem onlyReg_mergeMasked {s : State} {r : Addr} (k : BitVec 3) (z : Bool) (d s1 s2 : BitVec 5) :
    OnlyReg d s ((mergeMasked s k z d s1 s2).setRip r) :=
  onlyReg_mergeInto d _ _

/-- The EVEX register forms of both opcodes complete alike (R172, R174). -/
theorem exec_evexRegister_next {i : Instr} {s t : State} {k : BitVec 3} {z : Bool} {d s1 s2 : BitVec 5}
    (hi : i = .e10r k z d s1 s2 ∨ i = .e11r k z d s1 s2) : exec i s = .next t ↔
    HasForm s i ∧ ¬ (k = 0#3 ∧ z = true) ∧ Ready s i ∧ RipRoom s i ∧
      t = (mergeMasked s k z d s1 s2).setRip (s.rip + BitVec.ofNat 64 i.len) := by
  rcases hi with rfl | rfl
  · exact exec_e10r_next
  · exact exec_e11r_next

/-- With its mask on, a register form takes the low quadword of its second source (R172). -/
theorem low_mergeMasked_of_on {s : State} {k : BitVec 3} (on : maskOn s k = true) (z : Bool) (d s1 s2 : BitVec 5) :
    (mergeMasked s k z d s1 s2).low d = s.low s2 := by
  rw [low_mergeMasked, if_pos on]

/-- With its mask off, a register form keeps or zeroes the low quadword of its destination (R172, R177). -/
theorem low_mergeMasked_of_off {s : State} {k : BitVec 3} (off : maskOn s k = false) (z : Bool) (d s1 s2 : BitVec 5) :
    (mergeMasked s k z d s1 s2).low d = maskedOffLow s d z := by
  rw [low_mergeMasked, if_neg (Bool.eq_false_iff.mp off)]

/-- Settles O6: both opcodes retire in the state `mergeMasked` leaves, whose low quadword is the mask's choice. -/
theorem evexRegisterMerge : Obligations.EvexRegisterMerge := by
  intro k z d s1 s2 i s hi hz form ready room
  refine ⟨_, (exec_evexRegister_next hi).mpr ⟨form, hz, ready, room, rfl⟩, fun on => ?_, fun masked clear merging => ?_,
    fun masked clear zeroing => ?_, high_mergeMasked s _ _ _ _ _,
    fun _ above below => mergeMasked_clears s _ _ _ _ _ above below, rfl, onlyReg_mergeMasked _ _ _ _ _⟩
  · exact low_mergeMasked_of_on (maskOn_eq_true.mpr on) z d s1 s2
  · rw [setRip_low, low_mergeMasked_of_off (maskOn_eq_false.mpr ⟨masked, clear⟩), merging, maskedOffLow_false]
  · rw [setRip_low, low_mergeMasked_of_off (maskOn_eq_false.mpr ⟨masked, clear⟩), zeroing, maskedOffLow_true]

/-! ### The EVEX load and store with the mask on -/

/-- Settles O9: with its mask on the form retires in the state `loadClearing` leaves. -/
theorem evexLoadMaskOn : Obligations.EvexLoadMaskOn := by
  intro k z d m i ea s hi hea hz on form ready room admitted
  have run : exec i s = .next ((loadClearing s d (s.mem.readQuad ea.toNat)).setRip
      (s.rip + BitVec.ofNat 64 i.len)) := by
    rw [exec_e10m_next hi hea, if_pos (maskOn_eq_true.mpr on)]
    exact ⟨form, hz, rfl, ready, admitted, room, rfl⟩
  exact ⟨_, run, low_loadClearing s _ _, fun _ above below => loadClearing_clears s _ _ above below, rfl,
    onlyReg_loadClearing _ _⟩

/-- Settles O11: with its mask on the form retires with the quadword written. -/
theorem evexStoreMaskOn : Obligations.EvexStoreMaskOn := by
  intro k m src i ea s hi hea on form ready room admitted
  have run : exec i s = .next ((s.setMem (s.mem.writeQuad ea.toNat (s.low src))).setRip
      (s.rip + BitVec.ofNat 64 i.len)) := by
    rw [exec_e11m_next hi hea, if_pos (maskOn_eq_true.mpr on)]
    exact ⟨form, rfl, ready, admitted, room, rfl⟩
  exact ⟨_, run, fun wf j hj => Memory.read_writeQuad_inside _ wf (admitted_end admitted) j hj, rfl,
    onlyQuad_writeQuad ea _⟩

/-! ### The EVEX load and store with the mask off -/

/-- A masked-off probe that rejects nothing, or whose rejections are never raised, goes on in the state it was given
(R58). -/
theorem maskedOffProbe_goesOn {s : State} {seg : Seg} {ea : Addr} {kind : AccessKind} {k : State → Result}
    (h : probeCheck s seg ea kind = none ∨ s.cfg.maskedOffFaults = .never) : maskedOffProbe s seg ea kind k = k s :=
  h.elim maskedOffProbe_of_admitted maskedOffProbe_of_never

/-- Settles O10: the probe goes on, and the form retires in the state `loadClearing` leaves with `maskedOffLow`. -/
theorem evexLoadMaskOff : Obligations.EvexLoadMaskOff := by
  rintro k z d m i _ s rfl rfl masked off probe form ready room
  have run := (exec_e10m_maskedOff masked off form ready).trans
    ((maskedOffProbe_goesOn probe).trans (retire_of_kept room rfl rfl))
  exact ⟨_, run, low_loadClearing s _ _, fun _ above below => loadClearing_clears s _ _ above below, rfl,
    onlyReg_loadClearing _ _⟩

/-- Settles O12: the probe goes on, and the form retires in the state it was given. -/
theorem evexStoreMaskOff : Obligations.EvexStoreMaskOff := by
  rintro k m src i _ s rfl rfl masked off probe form ready room
  exact (exec_e11m_maskedOff masked off form ready).trans
    ((maskedOffProbe_goesOn probe).trans (retire_of_kept room rfl rfl))

/-! ### What the writemask governs -/

/-- An EVEX load that completes has written its destination by `loadClearing`, its mask on or off (R171, R173). -/
theorem exec_e10m_loadClearing {k : BitVec 3} {z : Bool} {vvvv : BitVec 4} {d : BitVec 5} {m : MemOp} {s t : State}
    (h : exec (.e10m k z vvvv d m) s = .next t) :
    ∃ u q r, u.cfg = s.cfg ∧ t = (loadClearing u d q).setRip r := by
  obtain ⟨-, -, -, -, body⟩ := (exec_e10m_next rfl rfl).mp h
  split at body
  · obtain ⟨-, -, rfl⟩ := body
    exact ⟨s, _, _, rfl, rfl⟩
  · obtain ⟨-, u, same, rfl⟩ := maskedOff_load_next body
    refine ⟨u, _, _, ?_, rfl⟩
    rcases same with rfl | rfl <;> rfl

/-- The writemask sees only bit 0 of the opmask register it selects (R170). -/
theorem maskOn_congr {s s' : State} {k : BitVec 3}
    (h : k ≠ 0#3 → (s'.kreg k).getLsbD 0 = (s.kreg k).getLsbD 0) : maskOn s' k = maskOn s k := by
  by_cases unmasked : k = 0#3
  · simp [maskOn, unmasked]
  · simp only [maskOn, h unmasked]

/-- Settles O7: above bit 63 `mergeMasked` and `loadClearing` see no mask, and an opmask file that keeps the mask's bit is
seen by no form. -/
theorem maskGovernsLowQuadword : Obligations.MaskGovernsLowQuadword := by
  refine ⟨fun k z d s1 s2 i s t hi run => ?_, fun k z vvvv d m s t run j above below => ?_,
    fun k z i s ks mask same => ?_⟩
  · obtain ⟨-, -, -, -, rfl⟩ := (exec_evexRegister_next hi).mp run
    exact ⟨high_mergeMasked s _ _ _ _ _, fun _ above below => mergeMasked_clears s _ _ _ _ _ above below⟩
  · obtain ⟨u, q, r, cfg, rfl⟩ := exec_e10m_loadClearing run
    exact loadClearing_clears u d q above (cfg ▸ below)
  · refine (transparent_opmasks ks).exec s fun k' z' mask' => ?_
    cases mask.symm.trans mask'
    exact maskOn_congr same

/-! ### EVEX forms without a writemask, and zeroing without one -/

/-- Without a writemask the mask is on (R170). -/
theorem maskOn_zero (s : State) : maskOn s 0#3 = true := maskOn_eq_true.mpr (.inl rfl)

/-- A form whose mask field is `k = 000b` moves its datum (R170). -/
theorem active_of_unmasked {i : Instr} {s : State} {z : Bool} (h : maskOf i = some (0#3, z)) : active s i = true := by
  simp only [active, h, maskOn_zero]

/-- Without a writemask the EVEX register merge is the VEX one (R176). -/
theorem mergeMasked_unmasked (s : State) (z : Bool) (d s1 s2 : BitVec 5) :
    mergeMasked s 0#3 z d s1 s2 = mergeInto s d (s.low s2) (s.high s1) := by
  rw [mergeMasked, if_pos (maskOn_zero s)]

/-- An unmasked EVEX register form ends as the VEX one does, but for `rip` (R176). -/
theorem unmaskedRegister_eq_vex {e v : Instr} {s te tv : State} {vex3 : Bool} {d s1 s2 : BitVec 4}
    (he : e = .e10r 0#3 false (xmm d) (xmm s1) (xmm s2) ∨ e = .e11r 0#3 false (xmm d) (xmm s1) (xmm s2))
    (hv : v = .v10r vex3 d s1 s2 ∨ v = .v11r vex3 d s1 s2) (runE : exec e s = .next te) (runV : exec v s = .next tv) :
    te = tv.setRip (s.rip + BitVec.ofNat 64 e.len) := by
  obtain ⟨-, -, -, -, rfl⟩ := (exec_evexRegister_next he).mp runE
  obtain ⟨-, -, -, rfl⟩ := (exec_vexRegister_next hv).mp runV
  rw [mergeMasked_unmasked]
  rfl

/-- Settles O25: unmasked, each EVEX form writes what the VEX form with its operands writes. -/
theorem unmaskedEvexIsVex : Obligations.UnmaskedEvexIsVex := by
  intro e v s te tv pair runE runV
  obtain ⟨vex3, d, s1, s2, ⟨he, hv⟩ | ⟨he, hv⟩⟩ | ⟨vex3, vst, d, m, m', sameBytes, ⟨rfl, rfl⟩ | ⟨rfl, rfl⟩⟩ := pair
  · exact unmaskedRegister_eq_vex (.inl he) (.inl hv) runE runV
  · exact unmaskedRegister_eq_vex (.inr he) (.inr hv) runE runV
  · obtain ⟨_, ⟨⟩, rfl⟩ := exec_load_next rfl (active_of_unmasked rfl) runE
    obtain ⟨_, ⟨⟩, rfl⟩ := exec_load_next rfl rfl runV
    rw [sameBytes]
    rfl
  · obtain ⟨_, ⟨⟩, rfl⟩ := exec_store_next rfl (active_of_unmasked rfl) runE
    obtain ⟨_, ⟨⟩, rfl⟩ := exec_store_next rfl rfl runV
    rw [sameBytes]
    rfl

/-- The zeroing check refuses zeroing without a writemask (R99). -/
theorem formZeroing_of_zeroingNoMask {i : Instr} (h : zeroingNoMask i = true) :
    formZeroing i = some (.refuse .zeroingWithoutMask) := by
  unfold zeroingNoMask at h
  split at h
  · next k z mask =>
    obtain ⟨noMask, zeroing⟩ : k = 0#3 ∧ z = true := by simpa using h
    simp only [formZeroing, mask, zeroingCheck, if_pos (And.intro noMask zeroing)]
  · cases h

/-- Settles O22: past the mode check the zeroing check is first. -/
theorem zeroingWithoutMaskRefused : Obligations.ZeroingWithoutMaskRefused := by
  intro i s form zeroing
  rw [exec_eq_checks, modeCheck_eq_none.mpr form, formZeroing_of_zeroingNoMask zeroing, guardOn_none, guardOn_refuse]

end Sys2Proof.Machine

namespace Sys2Proof.Machine

/-! ### Which check a fault comes from -/

section Faults

variable {i : Instr} {s : State} {f : Fault}

/-- The mode check raises no fault (R93). -/
theorem modeCheck_ne_fault : modeCheck i s ≠ some (.fault f) := by unfold modeCheck; split <;> simp

/-- The zeroing check raises no fault (R99). -/
theorem formZeroing_ne_fault : formZeroing i ≠ some (.fault f) := by
  unfold formZeroing zeroingCheck
  split
  · split <;> simp
  · simp

/-- The check of the stored `vvvv` passes or raises `#UD` (R102). -/
theorem formVvvv_cases (i : Instr) : formVvvv i = none ∨ formVvvv i = some (.fault .ud) := by
  unfold formVvvv vvvvCheck
  split
  · split
    · exact .inl rfl
    · exact .inr rfl
  · exact .inl rfl

/-- A class absent or not enabled raises `#UD` (R203, R204). -/
theorem formClass_of_disabled (h : s.hasClass (classOf i) = false ∨ s.osClass (classOf i) = false) :
    formClass i s = some (.fault .ud) := by
  rw [formClass, classCheck, if_pos (Bool.and_eq_false_iff.mpr h)]

/-- With the class present and enabled, `TS` raises `#NM` (R203, R204). -/
theorem formClass_of_ts (has : s.hasClass (classOf i) = true) (os : s.osClass (classOf i) = true) (ts : s.ts = true) :
    formClass i s = some (.fault .nm) := by
  simp only [formClass, has, os, ts, classCheck, Bool.and_self, reduceCtorEq, if_false, if_true]

/-- A class check raises nothing but `#UD` and `#NM` (R203, R204). -/
theorem formClass_fault (h : formClass i s = some (.fault f)) : f = .ud ∨ f = .nm := by
  obtain ⟨passes, -⟩ | ⟨ud, -⟩ | ⟨nm, -⟩ := classCheck_cases (s.hasClass (classOf i)) (s.osClass (classOf i)) s.ts
  · cases passes.symm.trans h
  · cases ud.symm.trans h
    exact .inl rfl
  · cases nm.symm.trans h
    exact .inr rfl

/-- A form faults where its `vvvv` check, its class check or its body does, the first of them first (R208). -/
theorem exec_fault_iff : exec i s = .fault f ↔
    modeCheck i s = none ∧ formZeroing i = none ∧ (formVvvv i = some (.fault f) ∨
      formVvvv i = none ∧ (formClass i s = some (.fault f) ∨ formClass i s = none ∧ formBody i s = .fault f)) := by
  simp only [exec_eq_checks, guardOn_fault_cases, modeCheck_ne_fault, formZeroing_ne_fault, false_or]

/-- The fault of a register form is that of its class check (R201). -/
theorem formClass_of_register_fault (register : memOperand i = none) (h : exec i s = .fault f) :
    formClass i s = some (.fault f) := by
  obtain ⟨u, body, -, -⟩ := formBody_of_register s register
  have vvvv : formVvvv i = none := formVvvv_of_ok (by simp [reservedVvvv_of_register register])
  obtain ⟨-, -, fault⟩ := exec_fault_iff.mp h
  simpa [vvvv, body, retire_ne_fault] using fault

end Faults

/-- Settles O15: past zeroing only the check of `vvvv` comes before the class check, and it too raises `#UD`. -/
theorem classChecks : Obligations.ClassChecks := by
  intro i s form zeroing
  simp only [exec_fault_iff, modeCheck_eq_none.mpr form, formZeroing_of_ok zeroing, true_and]
  refine ⟨fun disabled => ?_, fun has os ts vvvv => ?_⟩
  · exact (formVvvv_cases i).symm.imp_right fun passes => ⟨passes, .inl (formClass_of_disabled disabled)⟩
  · exact .inr ⟨formVvvv_of_ok vvvv, .inl (formClass_of_ts has os ts)⟩

/-- Settles O17: a register form's fault is its class check's, and a form that is Ready passes that check. -/
theorem registerFormFaults : Obligations.RegisterFormFaults := by
  intro i f s register fault
  exact ⟨formClass_fault (formClass_of_register_fault register fault),
    fun ready => exec_register_ne_fault register ready fault⟩

/-! ### What stops the access of a memory form -/

/-- What stops a masked-off access: the probe's answer, where the parameter or the free value lets it fault (R58). -/
def probeStop (s : State) (seg : Seg) (ea : Addr) (kind : AccessKind) : Option Stop :=
  match s.cfg.maskedOffFaults with
  | .never => none
  | .always => probeCheck s seg ea kind
  | .either => if Config.freeChoice s.freeCount = true then probeCheck s seg ea kind else none

/-- What stops a form past its checks and before it retires: the check of its access where it is active, its probe where
it is masked off, nothing where it has no memory operand (R57, R58, R201). -/
def formAccess (i : Instr) (s : State) : Option Stop :=
  match memOperand i with
  | none => none
  | some (m, kind, scale) =>
    if active s i then accessCheck s (segOf m) (effAddr s scale i.len m) kind
    else probeStop s (segOf m) (effAddr s scale i.len m) kind

section Access

variable {i : Instr} {s : State} {seg : Seg} {ea : Addr} {kind : AccessKind} {f : Fault}

/-- A load whose use of the value raises nothing faults where the check of its access does (R57). -/
theorem memRead_fault {k : Quad → Result} (hk : ∀ q, k q ≠ .fault f) :
    memRead s seg ea k = .fault f ↔ accessCheck s seg ea .read = some (.fault f) := by
  simp only [memRead, guardOn_fault_cases, hk, and_false, or_false]

/-- A store that raises nothing after it faults where the check of its access does (R57). -/
theorem memWrite_fault {v : Quad} {k : State → Result} (hk : ∀ u, k u ≠ .fault f) :
    memWrite s seg ea v k = .fault f ↔ accessCheck s seg ea .write = some (.fault f) := by
  simp only [memWrite, guardOn_fault_cases, hk, and_false, or_false]

/-- A masked-off probe is a check, then what follows in the state it was given or with the choice counted (R58). -/
theorem maskedOffProbe_guardOn (kind : AccessKind) (k : State → Result) :
    maskedOffProbe s seg ea kind k = guardOn (probeStop s seg ea kind) (k s) ∨
    maskedOffProbe s seg ea kind k = guardOn (probeStop s seg ea kind) (k s.countChoice) := by
  unfold maskedOffProbe probeStop
  cases probeCheck s seg ea kind with
  | none => cases s.cfg.maskedOffFaults <;> simp
  | some stop =>
    cases s.cfg.maskedOffFaults with
    | never => exact .inl rfl
    | always => exact .inl rfl
    | either => cases Config.freeChoice s.freeCount <;> simp [guardOn]

/-- A masked-off probe that raises nothing after it faults where its check does (R58). -/
theorem maskedOffProbe_fault {k : State → Result} (hk : ∀ u, k u ≠ .fault f) :
    maskedOffProbe s seg ea kind k = .fault f ↔ probeStop s seg ea kind = some (.fault f) := by
  obtain h | h := maskedOffProbe_guardOn (s := s) (seg := seg) (ea := ea) kind k <;>
    simp only [h, guardOn_fault_cases, hk, and_false, or_false]

/-- Past its checks a form faults where its access is stopped by a fault; retiring raises none (R201, R208). -/
theorem formBody_fault : formBody i s = .fault f ↔ formAccess i s = some (.fault f) := by
  cases i with
  | l10r | l11r | v10r | v11r | e10r | e11r =>
    simp only [formBody, formAccess, memOperand, retire_ne_fault, reduceCtorEq]
  | l10m | v10m => exact memRead_fault fun _ => retire_ne_fault
  | l11m | v11m => exact memWrite_fault fun _ => retire_ne_fault
  | e10m k =>
    cases on : maskOn s k with
    | true =>
      simp only [formBody, formAccess, memOperand, active, maskOf, on, if_true]
      exact memRead_fault fun _ => retire_ne_fault
    | false =>
      simp only [formBody, formAccess, memOperand, active, maskOf, on, Bool.false_eq_true, if_false]
      exact maskedOffProbe_fault fun _ => retire_ne_fault
  | e11m k =>
    cases on : maskOn s k with
    | true =>
      simp only [formBody, formAccess, memOperand, active, maskOf, on, if_true]
      exact memWrite_fault fun _ => retire_ne_fault
    | false =>
      simp only [formBody, formAccess, memOperand, active, maskOf, on, Bool.false_eq_true, if_false]
      exact maskedOffProbe_fault fun _ => retire_ne_fault

end Access

/-- Settles O18: no check of a form and no check of its access reads a vector register or a byte of memory. -/
theorem noValueRaisesException : Obligations.NoValueRaisesException := by
  refine fun i s vr mem => ⟨fun f => ?_, fun t h => (exec_controlKept h).mxcsr⟩
  have mode : modeCheck i { s with vr := vr, mem := mem } = modeCheck i s := rfl
  have enabled : formClass i { s with vr := vr, mem := mem } = formClass i s := rfl
  have access : formAccess i { s with vr := vr, mem := mem } = formAccess i s := rfl
  simp only [exec_fault_iff, formBody_fault, mode, enabled, access]

end Sys2Proof.Machine

namespace Sys2Proof

/-! ### Words of the spec -/

theorem decode_of_encode_eq {i : Instr} {word : List Byte} (bytes : encode i = word) (wf : i.wf = true) :
    decode word = .ok (i, []) := by
  rw [← bytes, ← List.append_nil (encode i)]
  exact decode_encode i [] wf

/-- Settles O46: each word is the encoding of its form, so the round trip decodes it. -/
theorem wordsOfTheSpecDecode : Obligations.WordsOfTheSpecDecode :=
  ⟨decode_of_encode_eq rfl rfl, decode_of_encode_eq rfl rfl, decode_of_encode_eq rfl rfl,
    decode_of_encode_eq rfl rfl, decode_of_encode_eq rfl rfl, decode_of_encode_eq rfl rfl⟩

end Sys2Proof
